-- ==== Sys2Proof/Word.lean ====
section
/-! DEFINITION. The word types of the chip8 core: the byte of a register or memory cell, the 16-bit word of I, PC and an
instruction, and the register number. Nothing here is specific to one instruction. -/

namespace Sys2Proof

/-- A byte: a V register, a timer, a memory cell (R20, R26, R27, R30). -/
abbrev Byte := BitVec 8

/-- A 16-bit word: I, PC, a stack entry, an instruction word (R22, R23, R25, R90). -/
abbrev Word := BitVec 16

/-- The number of a V register, always 0..15 (R20). -/
abbrev Reg := Fin 16

/-- A hex key code, 0..15 (R28). -/
abbrev Key := Fin 16

/-- The flag register V[15] (R21). -/
abbrev VF : Reg := 15

end Sys2Proof
end

