-- ==== Sys2Proof/Config.lean ====
section
/-! DEFINITION. What is fixed for the machine (R5) and what the spec leaves open (R6): the sizes, the parameters FONT
and STACK_OVERFLOW_POLICY, and the free random byte. The open values are opaque: no proof can see what they are. -/

namespace Sys2Proof

/-- MEM_SIZE (R5): addresses 0..4095. -/
abbrev Config.memSize : Nat := 4096

/-- PROG_BASE (R5): where a program is loaded, and the reset PC. -/
abbrev Config.progBase : Nat := 0x200

/-- STACK_DEPTH (R5). -/
abbrev Config.stackDepth : Nat := 16

/-- FONT_SIZE (R5): 16 glyphs of 5 bytes, from address 0. -/
abbrev Config.fontSize : Nat := 80

/-- GLYPH_STRIDE (R5). -/
abbrev Config.glyphStride : Nat := 5

/-- FONT (R6, R292), a parameter the source leaves open: the 80 font bytes, glyph d at 5·d. Which bytes they are, no proof can
see; a claim about pixels names them as a premise. DESIGN CHOICE (log entry 1); safe: what is proved holds for every font. -/
opaque Config.font : Vector Byte Config.fontSize

/-- The values STACK_OVERFLOW_POLICY can take (R146): the CALL faults, or a function given from outside says what
state the overflowing CALL leaves. `σ` is the machine's state and `legal` what makes a value of it a state of the
spec; the function goes from states of the spec to states of the spec. -/
inductive StackOverflowPolicy (σ : Type) (legal : σ → Prop) where
  /-- The CALL raises StackOverflow and changes nothing (R146, R264): the default the spec recommends. -/
  | fault
  /-- `f nnn s` is the state after a CALL of `nnn` in state `s` (R146, R264). -/
  | other (f : BitVec 12 → σ → σ) (keeps : ∀ nnn s, legal s → legal (f nnn s))
deriving Inhabited

/-- STACK_OVERFLOW_POLICY itself (R146), an OPEN parameter: which of its values it has, no proof can see.
DESIGN CHOICE (log entry 2); safe: what is proved holds under every policy. -/
opaque Config.stackOverflowPolicy (σ : Type) (legal : σ → Prop) : StackOverflowPolicy σ legal

/-- The random byte of the n-th core transition, where the host's byte is not known: a free value under no law
(R182, R39). DESIGN CHOICE (log entry 4); safe: what is proved holds for every byte. -/
opaque Config.randomByte : Nat → Byte

end Sys2Proof
end

