-- ==== Sys2Proof/Syntax.lean ====
section
/-! DEFINITION. The decoder's fields (R91) and the 35 instructions (R103), one constructor per row of the opcode table,
in the table's order. -/

namespace Sys2Proof

/-- The six outputs of chip8_decoder (R36, R91). They overlap, and every word has all six. -/
structure Fields where
  /-- bits 15:12 -/
  cls : BitVec 4
  /-- bits 11:0, NNN -/
  address : BitVec 12
  /-- bits 11:8, X -/
  regX : Reg
  /-- bits 7:4, Y -/
  regY : Reg
  /-- bits 7:0, NN -/
  imm8 : Byte
  /-- bits 3:0, N -/
  imm4 : BitVec 4
deriving DecidableEq, Repr

/-- The 35 instructions (R103). -/
inductive Instr where
  /-- 00E0 (R223). -/
  | cls
  /-- 00EE (R142). -/
  | ret
  /-- 0NNN (R143). -/
  | sys (nnn : BitVec 12)
  /-- 1NNN (R144). -/
  | jp (nnn : BitVec 12)
  /-- 2NNN (R145). -/
  | call (nnn : BitVec 12)
  /-- 3XNN (R147). -/
  | seImm (x : Reg) (nn : Byte)
  /-- 4XNN (R148). -/
  | sneImm (x : Reg) (nn : Byte)
  /-- 5XY0 (R149). -/
  | seReg (x y : Reg)
  /-- 6XNN (R171). -/
  | ldImm (x : Reg) (nn : Byte)
  /-- 7XNN (R172). -/
  | addImm (x : Reg) (nn : Byte)
  /-- 8XY0 (R173). -/
  | ldReg (x y : Reg)
  /-- 8XY1 (R174). -/
  | orReg (x y : Reg)
  /-- 8XY2 (R175). -/
  | andReg (x y : Reg)
  /-- 8XY3 (R176). -/
  | xorReg (x y : Reg)
  /-- 8XY4 (R177). -/
  | addReg (x y : Reg)
  /-- 8XY5 (R178). -/
  | subReg (x y : Reg)
  /-- 8XY6 (R179); Y is decoded but ignored. -/
  | shr (x y : Reg)
  /-- 8XY7 (R180). -/
  | subn (x y : Reg)
  /-- 8XYE (R181); Y is decoded but ignored. -/
  | shl (x y : Reg)
  /-- 9XY0 (R150). -/
  | sneReg (x y : Reg)
  /-- ANNN (R200). -/
  | ldI (nnn : BitVec 12)
  /-- BNNN (R151). -/
  | jpV0 (nnn : BitVec 12)
  /-- CXNN (R182). -/
  | rnd (x : Reg) (nn : Byte)
  /-- DXYN (R224). -/
  | drw (x y : Reg) (n : BitVec 4)
  /-- EX9E (R240). -/
  | skp (x : Reg)
  /-- EXA1 (R241). -/
  | sknp (x : Reg)
  /-- FX07 (R242). -/
  | ldVDt (x : Reg)
  /-- FX0A (R243). -/
  | ldVK (x : Reg)
  /-- FX15 (R249). -/
  | ldDtV (x : Reg)
  /-- FX18 (R250). -/
  | ldStV (x : Reg)
  /-- FX1E (R201). -/
  | addI (x : Reg)
  /-- FX29 (R202). -/
  | ldF (x : Reg)
  /-- FX33 (R203). -/
  | ldB (x : Reg)
  /-- FX55 (R204). -/
  | storeRegs (x : Reg)
  /-- FX65 (R205). -/
  | loadRegs (x : Reg)
deriving DecidableEq, Repr

end Sys2Proof
end

