-- ==== Sys2Proof/Machine/State.lean ====
section
/-! DEFINITION. The state of the machine (10_state.md, R20 to R33), the outputs of a step (R35), the reasons the machine has no
next state, and the state after `initialize()` (R41, R290). Plain data. -/

namespace Sys2Proof.Machine

/-- MEM (R30) as the bytes that differ from the reset contents, by rising address; `Memory.wf` says the form. -/
abbrev Memory := List Host.Cell

/-- FB (R29): 32 rows (y) of 64 pixels (x). -/
abbrev Framebuffer := Vector (Vector Bool 64) 32

/-- What an OutOfBounds error is about (R260). -/
inductive Space where
  | memory
  | keypad
deriving DecidableEq, Repr

/-- The outcome of a core transition (R35, R128, R260). All but `suspended` complete the step; the errors among them are
reported values after which the machine goes on (R267, R268). -/
inductive StepOutcome where
  | ok
  | invalidOpcode (word : Word)
  | outOfBounds (space : Space) (value : Nat)
  | stackOverflow
  | suspended
deriving DecidableEq, Repr

/-- The states in which the core has NO transition, each a stuck state of the spec. Closed. -/
inductive Fault where
  /-- QUIT = 1: the halt, left only by `initialize()` (R130, R275, R276). Raised by the cycle, before anything else.
  Safe: the spec gives this state no transition, so no behaviour is lost. -/
  | quitHalt
  /-- WAIT ≠ none and EDGE = none: the key wait, lifted only by the host's `setKey(k, 1)` or `requestQuit()` (R129, R275).
  Raised by the cycle. Safe: the spec gives this state no transition. -/
  | keyWaitHold
deriving DecidableEq, Repr

/-- What the model refuses. Closed. -/
inductive Refusal where
  /-- The instruction has no meaning in the model. No arm of `exec` answers with it. Safe. -/
  | notModelled (mnemonic : String)
  /-- A host action before the first `initialize()` (R295, D21: a model must refuse it). Raised by `hostAct`. Safe. -/
  | notInitialised
  /-- `setKey` with a code above 15, which the host must not pass (R40, D27). Raised by `hostAct`. Safe. -/
  | keyCodeOutOfRange (code : Nat)
deriving DecidableEq, Repr

/-- The state. The first thirteen fields are the spec's; the last five are the model's own (log entries 3 and 4). -/
structure State where
  /-- V[0..15] (R20, R21). -/
  v : Vector Byte 16
  /-- I (R23). -/
  i : Word
  /-- PC (R22): the address of the instruction being executed. -/
  pc : Word
  /-- SP (R24): the number of entries on the call stack. -/
  sp : Fin 17
  /-- STACK[0..15] (R25), apart from MEM. -/
  stack : Vector Word 16
  /-- DT (R26). -/
  dt : Byte
  /-- ST (R27). -/
  st : Byte
  /-- KEY[0..15] (R28): true is pressed. -/
  keys : Vector Bool 16
  /-- FB (R29). -/
  fb : Framebuffer
  /-- MEM (R30). -/
  mem : Memory
  /-- WAIT (R31): the X of a suspended FX0A. -/
  waiting : Option Reg
  /-- EDGE (R32): the first key-press edge reported during the wait. -/
  edge : Option Key
  /-- QUIT (R33). -/
  quit : Bool
  /-- The outcome output of the last core transition (R35). -/
  outcome : StepOutcome
  /-- The redraw output of the last core transition (R35, R127). -/
  redraw : Bool
  /-- The beep output of the last core transition (R35, R126). -/
  beep : Bool
  /-- The random byte the host passes with the coming step, where it is known (R39). -/
  rndIn : Option Byte
  /-- The number of core transitions taken: which free random byte is next (R182). -/
  rndCount : Nat
deriving DecidableEq, Repr

/-- The state after `initialize()` (R41, R290). The program is loaded later, by `loadProgram` (R293). -/
def State.reset : State where
  v := Vector.replicate 16 0
  i := 0
  pc := 0x200
  sp := 0
  stack := Vector.replicate 16 0
  dt := 0
  st := 0
  keys := Vector.replicate 16 false
  fb := Vector.replicate 32 (Vector.replicate 64 false)
  mem := []
  waiting := none
  edge := none
  quit := false
  outcome := .ok
  redraw := false
  beep := false
  rndIn := none
  rndCount := 0

end Sys2Proof.Machine
end

