-- ==== Sys2Proof/Machine/Flags.lean ====
section
/-! DEFINITION. The flag values instructions write to VF (R21) and the 8-bit arithmetic they go with (R170). Every comparison is
on the unbounded values; every result is truncated to its width. -/

namespace Sys2Proof.Machine

/-- A condition as the number 0 or 1 (R8). -/
def flagOf (c : Bool) : Byte :=
  if c then 1 else 0

/-- The carry of an 8-bit sum (R177): 1 when the unbounded sum exceeds 255. -/
def carryFlag (a b : Byte) : Byte :=
  flagOf (255 < a.toNat + b.toNat)

/-- No-borrow of `a - b` (R178): 0 when `b > a`, else 1. -/
def noBorrowFlag (a b : Byte) : Byte :=
  flagOf (!decide (b.toNat > a.toNat))

/-- The bit a right shift moves out (R179). -/
def shiftedOutRight (a : Byte) : Byte :=
  a &&& 1

/-- Bit 7, raw: 0x00 or 0x80, not normalised (R181). -/
def rawTopBit (a : Byte) : Byte :=
  a &&& 0x80

/-- The carry of I + V[X] out of 16 bits (R201). -/
def indexCarryFlag (i : Word) (a : Byte) : Byte :=
  flagOf (0xFFFF < i.toNat + a.toNat)

/-- trunc8(a + b) (R170, R177). -/
def add8 (a b : Byte) : Byte :=
  a + b

/-- trunc8(a - b) (R170, R178). -/
def sub8 (a b : Byte) : Byte :=
  a - b

/-- a >> 1 (R179). -/
def shr8 (a : Byte) : Byte :=
  a >>> 1

/-- trunc8(a << 1) (R181). -/
def shl8 (a : Byte) : Byte :=
  a <<< 1

/-- The decimal digits of a byte, hundreds first (R203). -/
def bcdDigits (a : Byte) : List Byte :=
  [BitVec.ofNat 8 (a.toNat / 100), BitVec.ofNat 8 (a.toNat / 10 % 10), BitVec.ofNat 8 (a.toNat % 10)]

end Sys2Proof.Machine
end

