-- ==== Sys2Proof/Decode.lean ====
section
/-! DEFINITION. chip8_decoder (R91), the dispatch function (R102), the decoder on bytes, and the encoder, written from the rows
of R103. Decoding is total; a word no row selects is rejected by name (R104). -/

namespace Sys2Proof

/-- chip8_decoder (R91, R93): the fixed slices of the word. -/
def decodeFields (w : Word) : Fields where
  cls := w.extractLsb' 12 4
  address := w.extractLsb' 0 12
  regX := (w.extractLsb' 8 4).toFin
  regY := (w.extractLsb' 4 4).toFin
  imm8 := w.extractLsb' 0 8
  imm4 := w.extractLsb' 0 4

/-- Class 0, on the full word (R96). -/
def dispatch0 (f : Fields) : Instr :=
  if f.address = 0x0E0#12 then .cls else if f.address = 0x0EE#12 then .ret else .sys f.address

/-- Class 8, on the low nibble (R97). -/
def dispatch8 (f : Fields) : Option Instr :=
  match f.imm4 with
  | 0x0#4 => some (.ldReg f.regX f.regY)
  | 0x1#4 => some (.orReg f.regX f.regY)
  | 0x2#4 => some (.andReg f.regX f.regY)
  | 0x3#4 => some (.xorReg f.regX f.regY)
  | 0x4#4 => some (.addReg f.regX f.regY)
  | 0x5#4 => some (.subReg f.regX f.regY)
  | 0x6#4 => some (.shr f.regX f.regY)
  | 0x7#4 => some (.subn f.regX f.regY)
  | 0xE#4 => some (.shl f.regX f.regY)
  | _ => none

/-- Class E, on the low byte (R98). -/
def dispatchE (f : Fields) : Option Instr :=
  match f.imm8 with
  | 0x9E#8 => some (.skp f.regX)
  | 0xA1#8 => some (.sknp f.regX)
  | _ => none

/-- Class F, on the low byte (R99). -/
def dispatchF (f : Fields) : Option Instr :=
  match f.imm8 with
  | 0x07#8 => some (.ldVDt f.regX)
  | 0x0A#8 => some (.ldVK f.regX)
  | 0x15#8 => some (.ldDtV f.regX)
  | 0x18#8 => some (.ldStV f.regX)
  | 0x1E#8 => some (.addI f.regX)
  | 0x29#8 => some (.ldF f.regX)
  | 0x33#8 => some (.ldB f.regX)
  | 0x55#8 => some (.storeRegs f.regX)
  | 0x65#8 => some (.loadRegs f.regX)
  | _ => none

/-- The dispatch on the fields (R95 to R102); `none` is an invalid word. -/
def dispatchFields (f : Fields) : Option Instr :=
  match f.cls with
  | 0x0#4 => some (dispatch0 f)
  | 0x1#4 => some (.jp f.address)
  | 0x2#4 => some (.call f.address)
  | 0x3#4 => some (.seImm f.regX f.imm8)
  | 0x4#4 => some (.sneImm f.regX f.imm8)
  | 0x5#4 => if f.imm4 = 0x0#4 then some (.seReg f.regX f.regY) else none
  | 0x6#4 => some (.ldImm f.regX f.imm8)
  | 0x7#4 => some (.addImm f.regX f.imm8)
  | 0x8#4 => dispatch8 f
  | 0x9#4 => if f.imm4 = 0x0#4 then some (.sneReg f.regX f.regY) else none
  | 0xA#4 => some (.ldI f.address)
  | 0xB#4 => some (.jpV0 f.address)
  | 0xC#4 => some (.rnd f.regX f.imm8)
  | 0xD#4 => some (.drw f.regX f.regY f.imm4)
  | 0xE#4 => dispatchE f
  | 0xF#4 => dispatchF f
  | _ => none

/-- Decode and dispatch of one word (R102, R122). -/
def dispatch (w : Word) : Option Instr :=
  dispatchFields (decodeFields w)

/-- The big-endian word of two bytes, `hi || lo` (R8, R64). -/
def wordOfBytes (hi lo : Byte) : Word :=
  hi ++ lo

/-- The two bytes of a word as memory holds them: the most significant one first, at the lower address (R64). -/
def bytesOfWord (w : Word) : List Byte :=
  [w.extractLsb' 8 8, w.extractLsb' 0 8]

/-- Why bytes are no instruction. -/
inductive DecodeError where
  /-- No row of R103 selects the word (R104). -/
  | invalidOpcode (word : Word)
  /-- Fewer than two bytes: every instruction is two bytes long (R90). -/
  | truncated
deriving DecidableEq, Repr

/-- The decoder on bytes: the instruction at the head of the list and the bytes after it, or why there is none. -/
def decodeBytes : List Byte → Except DecodeError (Instr × List Byte)
  | hi :: lo :: rest =>
    match dispatch (wordOfBytes hi lo) with
    | some i => .ok (i, rest)
    | none => .error (.invalidOpcode (wordOfBytes hi lo))
  | [_] => .error .truncated
  | [] => .error .truncated

/-- The 16-bit word a table row's number stands for: its low `nbits` bits, all bits above them zero. -/
def tableWord (nbits w : Nat) : Word :=
  BitVec.ofNat 16 (w % 2 ^ nbits)

/-- The instruction the decoder reads from an instruction whose bits are `w`, numbered as the opcode table numbers them. -/
def decodeTableWord (nbits w : Nat) : Option Instr :=
  match decodeBytes (bytesOfWord (tableWord nbits w)) with
  | .ok (i, _) => some i
  | .error _ => none

/-- The register number as the nibble of an instruction word. -/
def nibble (r : Reg) : BitVec 4 :=
  BitVec.ofFin r

/-- A word of the form `cNNN` (R91, R92). -/
def encNNN (c : BitVec 4) (nnn : BitVec 12) : Word :=
  c ++ nnn

/-- A word of the form `cXNN`. -/
def encXNN (c : BitVec 4) (x : Reg) (nn : Byte) : Word :=
  c ++ (nibble x ++ nn)

/-- A word of the form `cXYn`. -/
def encXYN (c : BitVec 4) (x y : Reg) (n : BitVec 4) : Word :=
  c ++ (nibble x ++ (nibble y ++ n))

/-- The word of an instruction, from the rows of R103. -/
def encode : Instr → Word
  | .cls => 0x00E0#16
  | .ret => 0x00EE#16
  | .sys nnn => encNNN 0x0#4 nnn
  | .jp nnn => encNNN 0x1#4 nnn
  | .call nnn => encNNN 0x2#4 nnn
  | .seImm x nn => encXNN 0x3#4 x nn
  | .sneImm x nn => encXNN 0x4#4 x nn
  | .seReg x y => encXYN 0x5#4 x y 0x0#4
  | .ldImm x nn => encXNN 0x6#4 x nn
  | .addImm x nn => encXNN 0x7#4 x nn
  | .ldReg x y => encXYN 0x8#4 x y 0x0#4
  | .orReg x y => encXYN 0x8#4 x y 0x1#4
  | .andReg x y => encXYN 0x8#4 x y 0x2#4
  | .xorReg x y => encXYN 0x8#4 x y 0x3#4
  | .addReg x y => encXYN 0x8#4 x y 0x4#4
  | .subReg x y => encXYN 0x8#4 x y 0x5#4
  | .shr x y => encXYN 0x8#4 x y 0x6#4
  | .subn x y => encXYN 0x8#4 x y 0x7#4
  | .shl x y => encXYN 0x8#4 x y 0xE#4
  | .sneReg x y => encXYN 0x9#4 x y 0x0#4
  | .ldI nnn => encNNN 0xA#4 nnn
  | .jpV0 nnn => encNNN 0xB#4 nnn
  | .rnd x nn => encXNN 0xC#4 x nn
  | .drw x y n => encXYN 0xD#4 x y n
  | .skp x => encXNN 0xE#4 x 0x9E#8
  | .sknp x => encXNN 0xE#4 x 0xA1#8
  | .ldVDt x => encXNN 0xF#4 x 0x07#8
  | .ldVK x => encXNN 0xF#4 x 0x0A#8
  | .ldDtV x => encXNN 0xF#4 x 0x15#8
  | .ldStV x => encXNN 0xF#4 x 0x18#8
  | .addI x => encXNN 0xF#4 x 0x1E#8
  | .ldF x => encXNN 0xF#4 x 0x29#8
  | .ldB x => encXNN 0xF#4 x 0x33#8
  | .storeRegs x => encXNN 0xF#4 x 0x55#8
  | .loadRegs x => encXNN 0xF#4 x 0x65#8

/-- The mask of an instruction's row in R103. -/
def Instr.rowMask : Instr → Word
  | .cls => 0xFFFF#16
  | .ret => 0xFFFF#16
  | .sys _ => 0xF000#16
  | .jp _ => 0xF000#16
  | .call _ => 0xF000#16
  | .seImm _ _ => 0xF000#16
  | .sneImm _ _ => 0xF000#16
  | .seReg _ _ => 0xF00F#16
  | .ldImm _ _ => 0xF000#16
  | .addImm _ _ => 0xF000#16
  | .ldReg _ _ => 0xF00F#16
  | .orReg _ _ => 0xF00F#16
  | .andReg _ _ => 0xF00F#16
  | .xorReg _ _ => 0xF00F#16
  | .addReg _ _ => 0xF00F#16
  | .subReg _ _ => 0xF00F#16
  | .shr _ _ => 0xF00F#16
  | .subn _ _ => 0xF00F#16
  | .shl _ _ => 0xF00F#16
  | .sneReg _ _ => 0xF00F#16
  | .ldI _ => 0xF000#16
  | .jpV0 _ => 0xF000#16
  | .rnd _ _ => 0xF000#16
  | .drw _ _ _ => 0xF000#16
  | .skp _ => 0xF0FF#16
  | .sknp _ => 0xF0FF#16
  | .ldVDt _ => 0xF0FF#16
  | .ldVK _ => 0xF0FF#16
  | .ldDtV _ => 0xF0FF#16
  | .ldStV _ => 0xF0FF#16
  | .addI _ => 0xF0FF#16
  | .ldF _ => 0xF0FF#16
  | .ldB _ => 0xF0FF#16
  | .storeRegs _ => 0xF0FF#16
  | .loadRegs _ => 0xF0FF#16

/-- The match value of an instruction's row in R103. -/
def Instr.rowMatch : Instr → Word
  | .cls => 0x00E0#16
  | .ret => 0x00EE#16
  | .sys _ => 0x0000#16
  | .jp _ => 0x1000#16
  | .call _ => 0x2000#16
  | .seImm _ _ => 0x3000#16
  | .sneImm _ _ => 0x4000#16
  | .seReg _ _ => 0x5000#16
  | .ldImm _ _ => 0x6000#16
  | .addImm _ _ => 0x7000#16
  | .ldReg _ _ => 0x8000#16
  | .orReg _ _ => 0x8001#16
  | .andReg _ _ => 0x8002#16
  | .xorReg _ _ => 0x8003#16
  | .addReg _ _ => 0x8004#16
  | .subReg _ _ => 0x8005#16
  | .shr _ _ => 0x8006#16
  | .subn _ _ => 0x8007#16
  | .shl _ _ => 0x800E#16
  | .sneReg _ _ => 0x9000#16
  | .ldI _ => 0xA000#16
  | .jpV0 _ => 0xB000#16
  | .rnd _ _ => 0xC000#16
  | .drw _ _ _ => 0xD000#16
  | .skp _ => 0xE09E#16
  | .sknp _ => 0xE0A1#16
  | .ldVDt _ => 0xF007#16
  | .ldVK _ => 0xF00A#16
  | .ldDtV _ => 0xF015#16
  | .ldStV _ => 0xF018#16
  | .addI _ => 0xF01E#16
  | .ldF _ => 0xF029#16
  | .ldB _ => 0xF033#16
  | .storeRegs _ => 0xF055#16
  | .loadRegs _ => 0xF065#16

/-- The table of R103: mask and match of its 35 rows, in its order. -/
def opcodeRows : List (Word × Word) :=
  [(0xFFFF#16, 0x00E0#16), (0xFFFF#16, 0x00EE#16), (0xF000#16, 0x0000#16), (0xF000#16, 0x1000#16), (0xF000#16, 0x2000#16)] ++
  [(0xF000#16, 0x3000#16), (0xF000#16, 0x4000#16), (0xF00F#16, 0x5000#16), (0xF000#16, 0x6000#16), (0xF000#16, 0x7000#16)] ++
  [(0xF00F#16, 0x8000#16), (0xF00F#16, 0x8001#16), (0xF00F#16, 0x8002#16), (0xF00F#16, 0x8003#16), (0xF00F#16, 0x8004#16)] ++
  [(0xF00F#16, 0x8005#16), (0xF00F#16, 0x8006#16), (0xF00F#16, 0x8007#16), (0xF00F#16, 0x800E#16), (0xF00F#16, 0x9000#16)] ++
  [(0xF000#16, 0xA000#16), (0xF000#16, 0xB000#16), (0xF000#16, 0xC000#16), (0xF000#16, 0xD000#16), (0xF0FF#16, 0xE09E#16)] ++
  [(0xF0FF#16, 0xE0A1#16), (0xF0FF#16, 0xF007#16), (0xF0FF#16, 0xF00A#16), (0xF0FF#16, 0xF015#16), (0xF0FF#16, 0xF018#16)] ++
  [(0xF0FF#16, 0xF01E#16), (0xF0FF#16, 0xF029#16), (0xF0FF#16, 0xF033#16), (0xF0FF#16, 0xF055#16), (0xF0FF#16, 0xF065#16)]

end Sys2Proof
end

