-- ==== Sys2Proof/Machine/Memory.lean ====
section
/-! DEFINITION. The memory controller (R37, 20_memory.md): the font, what memory holds at reset, the byte ports, the block checks
and transfers, and the instruction fetch. Addresses are unbounded naturals and never wrap (R61). -/

namespace Sys2Proof.Machine

/-- The bytes of the default of FONT (R292), glyph after glyph. The spec takes them from general knowledge (D20). -/
def defaultFontBytes : List Byte :=
  [0xF0, 0x90, 0x90, 0x90, 0xF0] ++ [0x20, 0x60, 0x20, 0x20, 0x70] ++
  [0xF0, 0x10, 0xF0, 0x80, 0xF0] ++ [0xF0, 0x10, 0xF0, 0x10, 0xF0] ++
  [0x90, 0x90, 0xF0, 0x10, 0x10] ++ [0xF0, 0x80, 0xF0, 0x10, 0xF0] ++
  [0xF0, 0x80, 0xF0, 0x90, 0xF0] ++ [0xF0, 0x10, 0x20, 0x40, 0x40] ++
  [0xF0, 0x90, 0xF0, 0x90, 0xF0] ++ [0xF0, 0x90, 0xF0, 0x10, 0xF0] ++
  [0xF0, 0x90, 0xF0, 0x90, 0x90] ++ [0xE0, 0x90, 0xE0, 0x90, 0xE0] ++
  [0xF0, 0x80, 0x80, 0x80, 0xF0] ++ [0xE0, 0x90, 0x90, 0x90, 0xE0] ++
  [0xF0, 0x80, 0xF0, 0x80, 0xF0] ++ [0xF0, 0x80, 0xF0, 0x80, 0x80]

/-- The default of FONT (R6, R292). The machine does not take it: a claim about glyph pixels has `font = defaultFont` as its
premise (log entry 1). -/
def defaultFont : Vector Byte Config.fontSize :=
  ⟨defaultFontBytes.toArray, rfl⟩

/-- The machine's FONT: the parameter of R6 and R292, whatever it is. -/
def font : Vector Byte Config.fontSize :=
  Config.font

/-- What `initialize()` puts at an address under a given FONT (R41, R290): FONT at 0..79, and 0 above. -/
def resetContents (f : Vector Byte Config.fontSize) (a : Nat) : Byte :=
  if h : a < Config.fontSize then f[a] else 0

/-- What an unlisted address reads as: the reset contents (R41, R290) under the machine's FONT. -/
def Memory.unlisted (a : Nat) : Byte :=
  resetContents font a

/-- The canonical form: addresses strictly rising, all below 4096, no entry equal to what it would read as unlisted. -/
abbrev Memory.wf (m : Memory) : Prop :=
  m.Pairwise (fun c d => c.1 < d.1) ∧ ∀ c ∈ m, c.1 < Config.memSize ∧ c.2 ≠ Memory.unlisted c.1

/-- MEM[a]. -/
def Memory.byteAt : Memory → Nat → Byte
  | [], a => Memory.unlisted a
  | c :: m, a => if c.1 = a then c.2 else Memory.byteAt m a

/-- The list without the cell of `a`. -/
def Memory.erase (m : Memory) (a : Nat) : Memory :=
  m.filter (fun c => c.1 ≠ a)

/-- The list with the cell of `a` put in its place by address. -/
def Memory.insert : Memory → Nat → Byte → Memory
  | [], a, b => [(a, b)]
  | c :: m, a, b => if a < c.1 then (a, b) :: c :: m else c :: Memory.insert m a b

/-- MEM[a] <- b, keeping the canonical form: writing what an unlisted address reads as removes the cell. -/
def Memory.put (m : Memory) (a : Nat) (b : Byte) : Memory :=
  if b = Memory.unlisted a then Memory.erase m a else Memory.insert (Memory.erase m a) a b

/-- CheckRange(a, n) (R206): a block of `n` bytes at `a` lies in memory, or the lowest invalid address of the block.
A block of no bytes touches no address (R224: no check when N = 0). -/
def checkRange (a n : Nat) : Except Nat Unit :=
  if 0 < n ∧ Config.memSize < a + n then .error (max a Config.memSize) else .ok ()

/-- MemRead(a, 1) (R62), the byte read port. -/
def Memory.read (m : Memory) (a : Nat) : Except Nat Byte :=
  if a < Config.memSize then .ok (m.byteAt a) else .error a

/-- MemWrite(a, 1, v) (R63), the byte write port. -/
def Memory.write (m : Memory) (a : Nat) (b : Byte) : Except Nat Memory :=
  if a < Config.memSize then .ok (m.put a b) else .error a

/-- The bytes at a, a + 1, .. a + n - 1, in ascending order (R68). -/
def Memory.bytesAt (m : Memory) (a : Nat) : Nat → List Byte
  | 0 => []
  | n + 1 => m.byteAt a :: Memory.bytesAt m (a + 1) n

/-- The bytes put at a, a + 1, .. in ascending order (R68). -/
def Memory.putBytes (m : Memory) (a : Nat) : List Byte → Memory
  | [] => m
  | b :: bs => Memory.putBytes (m.put a b) (a + 1) bs

/-- A block read: the range check over the whole block, then the bytes (R206). -/
def Memory.readBlock (m : Memory) (a n : Nat) : Except Nat (List Byte) :=
  match checkRange a n with
  | .error e => .error e
  | .ok _ => .ok (m.bytesAt a n)

/-- A block write: the range check over the whole block before the first byte, then the bytes (R206, R262). -/
def Memory.writeBlock (m : Memory) (a : Nat) (bs : List Byte) : Except Nat Memory :=
  match checkRange a bs.length with
  | .error e => .error e
  | .ok _ => .ok (m.putBytes a bs)

/-- MemRead(a, 2), the instruction fetch (R64, R65): both bytes checked first, then the big-endian word. -/
def Memory.fetch (m : Memory) (a : Nat) : Except Nat Word :=
  match checkRange a 2 with
  | .error e => .error e
  | .ok _ => .ok (wordOfBytes (m.byteAt a) (m.byteAt (a + 1)))

end Sys2Proof.Machine
end

