-- ==== Sys2Proof/Machine/Ops.lean ====
section
/-! DEFINITION. The named operations over the state: registers, PC, the call stack (R140, R141), the timers (R125), keys, how an
instruction completes, raises an error or suspends (R128, R262, R267), and how a core transition ends (R125, R131). -/

namespace Sys2Proof.Machine

/-- What an instruction answers. -/
abbrev Result := Host.Outcome State Fault Refusal

/-- What every state of the spec satisfies beyond its fields' types: memory in its canonical form, and EDGE is none whenever
WAIT is none (R32). -/
abbrev State.legal (s : State) : Prop :=
  s.mem.wf ∧ (s.waiting = none → s.edge = none)

/-- V[x]. -/
def State.reg (s : State) (x : Reg) : Byte :=
  s.v.get x

/-- V[x] <- b. -/
def State.setReg (s : State) (x : Reg) (b : Byte) : State :=
  { s with v := s.v.set x.val b x.isLt }

/-- V[k], V[k+1], .. <- the bytes, in ascending order (R205). -/
def setRegsFrom (v : Vector Byte 16) : Nat → List Byte → Vector Byte 16
  | _, [] => v
  | k, b :: bs => setRegsFrom (v.setIfInBounds k b) (k + 1) bs

/-- V[0], .., V[x], in ascending order (R204). -/
def State.regsUpTo (s : State) (x : Reg) : List Byte :=
  s.v.toList.take (x.val + 1)

/-- PC <- trunc16(PC + n) (R124). -/
def State.advance (s : State) (n : Word) : State :=
  { s with pc := s.pc + n }

/-- PC <- the target, unchecked (R152). -/
def State.jump (s : State) (target : Word) : State :=
  { s with pc := target }

/-- PC <- PC + (c ? 4 : 2), the skips (R147 to R150, R240, R241). -/
def State.skipIf (s : State) (c : Bool) : State :=
  s.advance (if c then 4 else 2)

/-- KEY[k]. -/
def State.key (s : State) (k : Key) : Bool :=
  s.keys.get k

/-- The random byte of this step (R39): the host's, or a free value. -/
def State.rnd (s : State) : Byte :=
  s.rndIn.getD (Config.randomByte s.rndCount)

/-- The word at PC, or the lowest invalid address of the fetch (R121). -/
def State.fetch (s : State) : Except Nat Word :=
  s.mem.fetch s.pc.toNat

/-- The instruction completes: outcome ok, no redraw (R128). -/
def done (s : State) : Result :=
  .next { s with outcome := .ok, redraw := false }

/-- The instruction completes and the framebuffer is dirty: outcome ok, redraw (R127). -/
def doneRedraw (s : State) : Result :=
  .next { s with outcome := .ok, redraw := true }

/-- The state after an error is raised: nothing but the outputs changes, and PC stays (R262, R267). -/
def State.raised (s : State) (e : StepOutcome) : State :=
  { s with outcome := e, redraw := false }

/-- Taking an error (R267): it saves nothing and vectors nowhere; the outcome is reported and the machine goes on. -/
def raiseError (e : StepOutcome) (s : State) : Result :=
  .next (s.raised e)

/-- The FX0A entry (R244): WAIT <- some(x), EDGE <- none, outcome suspended. -/
def suspend (x : Reg) (s : State) : Result :=
  .next { s with waiting := some x, edge := none, outcome := .suspended, redraw := false }

/-- The end of an instruction that has checked a block: its completion, or OutOfBounds with the lowest invalid address. -/
def orOutOfBounds {α : Type} (r : Except Nat α) (s : State) (k : α → Result) : Result :=
  match r with
  | .error a => raiseError (.outOfBounds .memory a) s
  | .ok v => k v

/-- push(v) where there is room (R140): STACK[SP] <- v, then SP <- SP + 1. -/
def State.push (s : State) (w : Word) (h : s.sp.val < 16) : State :=
  { s with stack := s.stack.set s.sp.val w h, sp := ⟨s.sp.val + 1, by omega⟩ }

/-- SP <- SP - 1, the entry kept (R141). -/
def State.popped (s : State) : State :=
  { s with sp := ⟨s.sp.val - 1, by omega⟩ }

/-- STACK[SP - 1], the value `pop` returns when SP > 0 (R141). -/
def State.top (s : State) : Word :=
  s.stack.get ⟨s.sp.val - 1, by omega⟩

/-- The spec's own part of a state: the model's five fields blanked. -/
def State.architectural (s : State) : State :=
  { s with outcome := .ok, redraw := false, beep := false, rndIn := none, rndCount := 0 }

/-- The state an overflowing CALL leaves under `other f` (R146): `f` reads and writes the spec's state only. -/
def State.overflowed (s : State) (f : BitVec 12 → State → State) (nnn : BitVec 12) : State :=
  { f nnn s.architectural with
    outcome := .ok, redraw := false, beep := s.beep, rndIn := s.rndIn, rndCount := s.rndCount }

/-- STACK_OVERFLOW_POLICY over this machine (R146). -/
abbrev OverflowPolicy := StackOverflowPolicy State State.legal

/-- `apply STACK_OVERFLOW_POLICY` for a CALL of `nnn` with SP = 16 (R146, R264). -/
def applyOverflow (p : OverflowPolicy) (nnn : BitVec 12) (s : State) : Result :=
  match p with
  | .fault => raiseError .stackOverflow s
  | .other f _ => done (s.overflowed f nnn)

/-- One decrement of a timer: down to zero and no further (R125). -/
def decTimer (t : Byte) : Byte :=
  if 0 < t.toNat then t - 1 else t

/-- tick() (R125, R126): beep exactly when ST is 1 before the decrement. -/
def State.tick (s : State) : State :=
  { s with beep := decide (s.st = 1), dt := decTimer s.dt, st := decTimer s.st }

/-- The random byte of this transition is used up. -/
def State.nextRnd (s : State) : State :=
  { s with rndIn := none, rndCount := s.rndCount + 1 }

/-- The end of a core transition (R120): the tick, but not after `suspended` (R125, R244); also after an error (R131). -/
def State.endStep (s : State) : State :=
  match s.outcome with
  | .suspended => State.nextRnd { s with beep := false }
  | .ok => s.tick.nextRnd
  | .invalidOpcode _ => s.tick.nextRnd
  | .outOfBounds _ _ => s.tick.nextRnd
  | .stackOverflow => s.tick.nextRnd

/-- A function of the next state, under an answer. -/
def mapNext (f : State → State) : Result → Result
  | .next s => .next (f s)
  | .fault r => .fault r
  | .refused r => .refused r

/-- FX0A completion (R246): V[x] <- k, PC <- PC + 2, the wait over. -/
def State.completeKeyWait (s : State) (x : Reg) (k : Key) : State :=
  { (s.setReg x (BitVec.ofNat 8 k.val)).advance 2 with
    waiting := none, edge := none, outcome := .ok, redraw := false }

/-- The numeric codes of the outcomes (R260). -/
def StepOutcome.code : StepOutcome → Nat
  | .ok => 0
  | .invalidOpcode _ => 1
  | .outOfBounds .memory _ => 2
  | .outOfBounds .keypad _ => 3
  | .stackOverflow => 4
  | .suspended => 5

/-- The outcome is an error (R260): neither ok nor suspended. -/
def StepOutcome.isError : StepOutcome → Bool
  | .ok => false
  | .invalidOpcode _ => true
  | .outOfBounds _ _ => true
  | .stackOverflow => true
  | .suspended => false

end Sys2Proof.Machine
end

