-- ==== Sys2Proof/Machine/Operands.lean ====
section
/-! DEFINITION. The operand forms (R94) and the shapes of instruction over them: an immediate or a register into V[X], a flag into
VF and then a result into V[X] (D3), a block at I. -/

namespace Sys2Proof.Machine

/-- NNN as a 16-bit value (R94, zero-extended). -/
def zext12 (nnn : BitVec 12) : Word :=
  nnn.setWidth 16

/-- A byte as a 16-bit value (R94, zero-extended). -/
def zext8 (b : Byte) : Word :=
  b.setWidth 16

/-- The address I, as the unbounded integer addresses are (R61). -/
def State.indexAddr (s : State) : Nat :=
  s.i.toNat

/-- V[x] <- b; PC <- PC + 2. -/
def loadReg (x : Reg) (b : Byte) (s : State) : Result :=
  done ((s.setReg x b).advance 2)

/-- I <- w; PC <- PC + 2. -/
def loadIndex (w : Word) (s : State) : Result :=
  done ({ s with i := w }.advance 2)

/-- VF <- the flag; then V[X] <- the result, read from the state the flag left; PC <- PC + 2 (R177 to R181, D3). -/
def flagThenResult (flag result : Byte → Byte → Byte) (x y : Reg) (s : State) : Result :=
  let s1 := s.setReg VF (flag (s.reg x) (s.reg y))
  loadReg x (result (s1.reg x) (s1.reg y)) s1

/-- A store of bytes at I, checked whole first; PC <- PC + 2 (R203, R204). -/
def storeBlock (bs : List Byte) (s : State) : Result :=
  orOutOfBounds (s.mem.writeBlock s.indexAddr bs) s fun m => done ({ s with mem := m }.advance 2)

/-- The key whose code is V[X], or OutOfBounds(keypad, V[X]) when it is above 15 (R240, R241). -/
def withKey (x : Reg) (s : State) (k : Bool → Result) : Result :=
  if h : (s.reg x).toNat < 16 then k (s.key ⟨(s.reg x).toNat, h⟩)
  else raiseError (.outOfBounds .keypad (s.reg x).toNat) s

end Sys2Proof.Machine
end

