-- ==== Sys2Proof/Machine/Alu.lean ====
section
/-! DEFINITION. Register loads, ALU and random (42_alu.md). Each ends with PC <- PC + 2. -/

namespace Sys2Proof.Machine

/-- 6XNN (R171). -/
def execLdImm (x : Reg) (nn : Byte) (s : State) : Result :=
  loadReg x nn s

/-- 7XNN (R172): no flag. -/
def execAddImm (x : Reg) (nn : Byte) (s : State) : Result :=
  loadReg x (add8 (s.reg x) nn) s

/-- 8XY0 (R173). -/
def execLdReg (x y : Reg) (s : State) : Result :=
  loadReg x (s.reg y) s

/-- 8XY1 (R174): VF is not reset. -/
def execOr (x y : Reg) (s : State) : Result :=
  loadReg x (s.reg x ||| s.reg y) s

/-- 8XY2 (R175). -/
def execAnd (x y : Reg) (s : State) : Result :=
  loadReg x (s.reg x &&& s.reg y) s

/-- 8XY3 (R176). -/
def execXor (x y : Reg) (s : State) : Result :=
  loadReg x (s.reg x ^^^ s.reg y) s

/-- 8XY4 (R177). -/
def execAddReg (x y : Reg) (s : State) : Result :=
  flagThenResult carryFlag add8 x y s

/-- 8XY5 (R178). -/
def execSub (x y : Reg) (s : State) : Result :=
  flagThenResult noBorrowFlag sub8 x y s

/-- 8XY6 (R179): V[X] alone; Y is ignored. -/
def execShr (x y : Reg) (s : State) : Result :=
  flagThenResult (fun a _ => shiftedOutRight a) (fun a _ => shr8 a) x y s

/-- 8XY7 (R180): V[Y] - V[X]. -/
def execSubn (x y : Reg) (s : State) : Result :=
  flagThenResult (fun a b => noBorrowFlag b a) (fun a b => sub8 b a) x y s

/-- 8XYE (R181): V[X] alone, the flag raw; Y is ignored. -/
def execShl (x y : Reg) (s : State) : Result :=
  flagThenResult (fun a _ => rawTopBit a) (fun a _ => shl8 a) x y s

/-- CXNN (R182): rnd & NN. -/
def execRnd (x : Reg) (nn : Byte) (s : State) : Result :=
  loadReg x (s.rnd &&& nn) s

end Sys2Proof.Machine
end

