-- ==== Sys2Proof/Machine/Control.lean ====
section
/-! DEFINITION. Control transfer (41_control.md): return, the no-op, jumps, call and the skips on registers. No flag is written. -/

namespace Sys2Proof.Machine

/-- 00EE (R142): pop into PC, or a no-op that advances when the stack is empty. -/
def execRet (s : State) : Result :=
  if 0 < s.sp.val then done (s.popped.jump s.top) else done (s.advance 2)

/-- 0NNN (R143): the legacy no-op. -/
def execSys (_nnn : BitVec 12) (s : State) : Result :=
  done (s.advance 2)

/-- 1NNN (R144). -/
def execJp (nnn : BitVec 12) (s : State) : Result :=
  done (s.jump (zext12 nnn))

/-- 2NNN under a given STACK_OVERFLOW_POLICY (R145, R146): push PC + 2 and go to NNN; with SP = 16 the policy alone. -/
def callWith (p : OverflowPolicy) (nnn : BitVec 12) (s : State) : Result :=
  if h : s.sp.val < 16 then done ((s.push (s.pc + 2) h).jump (zext12 nnn)) else applyOverflow p nnn s

/-- 2NNN (R145), under the machine's policy. -/
def execCall (nnn : BitVec 12) (s : State) : Result :=
  callWith (Config.stackOverflowPolicy State State.legal) nnn s

/-- 3XNN (R147). -/
def execSeImm (x : Reg) (nn : Byte) (s : State) : Result :=
  done (s.skipIf (s.reg x == nn))

/-- 4XNN (R148). -/
def execSneImm (x : Reg) (nn : Byte) (s : State) : Result :=
  done (s.skipIf (s.reg x != nn))

/-- 5XY0 (R149). -/
def execSeReg (x y : Reg) (s : State) : Result :=
  done (s.skipIf (s.reg x == s.reg y))

/-- 9XY0 (R150). -/
def execSneReg (x y : Reg) (s : State) : Result :=
  done (s.skipIf (s.reg x != s.reg y))

/-- BNNN (R151): PC <- trunc16(PC + NNN + V[0]), from the address of the BNNN itself. -/
def execJpV0 (nnn : BitVec 12) (s : State) : Result :=
  done (s.advance (zext12 nnn + zext8 (s.reg 0)))

end Sys2Proof.Machine
end

