-- ==== Sys2Proof/Machine/Display.lean ====
section
/-! DEFINITION. The sprite compositor (R220 to R222, R38) and the two drawing instructions (R223, R224). -/

namespace Sys2Proof.Machine

/-- pixel(x, y) (R38); false outside the grid. -/
def pixel (fb : Framebuffer) (x y : Nat) : Bool :=
  if h : x < 64 ∧ y < 32 then (fb.get ⟨y, h.2⟩).get ⟨x, h.1⟩ else false

/-- FB[x,y] <- b; nothing outside the grid. -/
def setPixel (fb : Framebuffer) (x y : Nat) (b : Bool) : Framebuffer :=
  if h : x < 64 ∧ y < 32 then fb.set y ((fb.get ⟨y, h.2⟩).set x b h.1) h.2 else fb

/-- FB[x,y] <- FB[x,y] ^ 1 (R222). -/
def togglePixel (fb : Framebuffer) (x y : Nat) : Framebuffer :=
  setPixel fb x y (!pixel fb x y)

/-- clear() (R221). -/
def clearedFramebuffer : Framebuffer :=
  Vector.replicate 32 (Vector.replicate 64 false)

/-- One pixel of a sprite row at (x, y) (R222): clipped at the right and bottom edges, XORed where the sprite's bit is 1, and a
collision where it turns a lit pixel off. The pair is FB and the collision so far. -/
def plotBit (x y : Nat) (bit : Bool) (acc : Framebuffer × Bool) : Framebuffer × Bool :=
  if y < 32 ∧ x < 64 ∧ bit then (togglePixel acc.1 x y, acc.2 || pixel acc.1 x y) else acc

/-- One sprite row at (x, y) (R222), columns 0..7, bit 7 leftmost. -/
def plotRow (x y : Nat) (row : Byte) (acc : Framebuffer × Bool) : Framebuffer × Bool :=
  [0, 1, 2, 3, 4, 5, 6, 7].foldl (fun acc rx => plotBit (x + rx) y (row.getLsbD (7 - rx)) acc) acc

/-- The rows of a sprite at (x, y), (x, y + 1), .. (R222). -/
def plotRows (x y : Nat) : List Byte → Framebuffer × Bool → Framebuffer × Bool
  | [], acc => acc
  | row :: rows, acc => plotRows x (y + 1) rows (plotRow x y row acc)

/-- composite(x, y, rows) (R222): the new FB and the collision. -/
def composite (x y : Nat) (rows : List Byte) (fb : Framebuffer) : Framebuffer × Bool :=
  plotRows x y rows (fb, false)

/-- 00E0 (R223). -/
def execCls (s : State) : Result :=
  doneRedraw ({ s with fb := clearedFramebuffer }.advance 2)

/-- DXYN (R224): the origin is read first, then the range check over all N rows, then VF <- 0, the sprite, VF <- 1 on a
collision. -/
def execDrw (x y : Reg) (n : BitVec 4) (s : State) : Result :=
  orOutOfBounds (s.mem.readBlock s.indexAddr n.toNat) s fun rows =>
    let r := composite (s.reg x).toNat (s.reg y).toNat rows s.fb
    doneRedraw (({ s with fb := r.1 }.setReg VF (flagOf r.2)).advance 2)

end Sys2Proof.Machine
end

