-- ==== Sys2Proof/Machine/IndexMemory.lean ====
section
/-! DEFINITION. The index register and memory transfer (43_index_memory.md). I is never changed by a transfer. -/

namespace Sys2Proof.Machine

/-- ANNN (R200). -/
def execLdI (nnn : BitVec 12) (s : State) : Result :=
  loadIndex (zext12 nnn) s

/-- FX1E (R201): VF <- the 16-bit carry, then I <- trunc16(I + V[X]), V[X] read after VF is written. -/
def execAddI (x : Reg) (s : State) : Result :=
  let s1 := s.setReg VF (indexCarryFlag s.i (s.reg x))
  loadIndex (s1.i + zext8 (s1.reg x)) s1

/-- FX29 (R202): I <- V[X] * 5, not masked. -/
def execLdF (x : Reg) (s : State) : Result :=
  loadIndex (BitVec.ofNat 16 ((s.reg x).toNat * Config.glyphStride)) s

/-- FX33 (R203): the three decimal digits of V[X] at I, I + 1, I + 2. -/
def execLdB (x : Reg) (s : State) : Result :=
  storeBlock (bcdDigits (s.reg x)) s

/-- FX55 (R204): V[0] .. V[X] at I .. I + X. -/
def execStoreRegs (x : Reg) (s : State) : Result :=
  storeBlock (s.regsUpTo x) s

/-- FX65 (R205): V[0] .. V[X] from I .. I + X. -/
def execLoadRegs (x : Reg) (s : State) : Result :=
  orOutOfBounds (s.mem.readBlock s.indexAddr (x.val + 1)) s fun bs =>
    done ({ s with v := setRegsFrom s.v 0 bs }.advance 2)

end Sys2Proof.Machine
end

