-- ==== Sys2Proof/Machine/InputTimers.lean ====
section
/-! DEFINITION. Key skips, the key wait and the timer instructions (45_input_timers.md). The tick is the cycle's, not theirs. -/

namespace Sys2Proof.Machine

/-- EX9E (R240). -/
def execSkp (x : Reg) (s : State) : Result :=
  withKey x s fun pressed => done (s.skipIf pressed)

/-- EXA1 (R241). -/
def execSknp (x : Reg) (s : State) : Result :=
  withKey x s fun pressed => done (s.skipIf (!pressed))

/-- FX07 (R242): DT before this step's tick. -/
def execLdVDt (x : Reg) (s : State) : Result :=
  loadReg x s.dt s

/-- FX0A (R243, R244): the entry of the key wait. `State.completeKeyWait` is its completion (R246). -/
def execLdVK (x : Reg) (s : State) : Result :=
  suspend x s

/-- FX15 (R249). -/
def execLdDtV (x : Reg) (s : State) : Result :=
  done ({ s with dt := s.reg x }.advance 2)

/-- FX18 (R250). -/
def execLdStV (x : Reg) (s : State) : Result :=
  done ({ s with st := s.reg x }.advance 2)

end Sys2Proof.Machine
end

