-- ==== Sys2Proof/Machine/Cycle.lean ====
section
/-! DEFINITION. core_step (R120): the checks in the order of R266, the fetch, the dispatch, the instruction and the end of the
transition. Step.lean calls it. -/

namespace Sys2Proof.Machine

/-- What a fetched word does (R122, R123): InvalidOpcode where no row selects it, else its instruction; then the end of the
transition. -/
def runWord (w : Word) (s : State) : Result :=
  match dispatch w with
  | none => .next (s.raised (.invalidOpcode w)).endStep
  | some i => mapNext State.endStep (exec i s)

/-- Fetch, dispatch, execute, tick (R120, R121): the transition of a core that is not waiting. -/
def fetchAndRun (s : State) : Result :=
  match s.fetch with
  | .error a => .next (s.raised (.outOfBounds .memory a)).endStep
  | .ok w => runWord w s

/-- The transition of a core with WAIT = some(x) (R129, R246): it fetches nothing. -/
def resumeKeyWait (x : Reg) (s : State) : Result :=
  match s.edge with
  | none => .fault .keyWaitHold
  | some k => .next (s.completeKeyWait x k).endStep

/-- One core transition (R120), with the random byte the state gives (`State.rnd`). QUIT is looked at first, then WAIT, then
the fetch (R266). -/
def cycle (s : State) : Result :=
  if s.quit then .fault .quitHalt
  else
    match s.waiting with
    | some x => resumeKeyWait x s
    | none => fetchAndRun s

/-- core_step(rnd) (R39): the transition with the random byte the host passes. -/
def coreStep (rnd : Byte) (s : State) : Result :=
  cycle { s with rndIn := some rnd }

/-- A state whose next transition fetches: not halted, not waiting, and PC where a fetch can be. -/
def State.readyToFetch (s : State) : State :=
  { s with
    quit := false, waiting := none, edge := none,
    pc := if s.pc.toNat + 1 < Config.memSize then s.pc else BitVec.ofNat 16 Config.progBase }

/-- The word stored where the next transition fetches it (R64). -/
def State.placeWord (s : State) (w : Word) : State :=
  let s1 := s.readyToFetch
  { s1 with mem := s1.mem.putBytes s1.pc.toNat (bytesOfWord w) }

end Sys2Proof.Machine
end

