-- ==== Sys2Proof/Machine/Step.lean ====
section
/-! DEFINITION. One step of the machine, and the state in which a given instruction is the next one fetched. -/

namespace Sys2Proof.Machine

/-- One core transition (R120). -/
def step (s : State) : Host.Outcome State Fault Refusal :=
  cycle s

/-- The state with the instruction whose bits are `w` (numbered as the opcode table numbers them) stored where the next step
fetches (log entry 5). -/
def State.withFetchWord (s : State) (nbits w : Nat) : State :=
  s.placeWord (tableWord nbits w)

end Sys2Proof.Machine
end

