-- ==== Sys2Proof/Machine/HostActions.lean ====
section
/-! DEFINITION. The host agent (R40): its six actions, each one atomic and between two core transitions, over a session that has no
state before the first `initialize()` (R295). -/

namespace Sys2Proof.Machine

/-- What `loadProgram` returns (R293, R294). -/
inductive LoadResult where
  | ok
  | programTooLarge (length : Nat)
deriving DecidableEq, Repr

/-- The numeric code of a load result (R260). -/
def LoadResult.code : LoadResult → Nat
  | .ok => 0
  | .programTooLarge _ => 6

/-- `initialize()` (R290): every piece of state at its reset value. The count of random bytes goes on, so that two runs share
no law of the random byte (R182). -/
def State.reinitialised (s : State) : State :=
  { State.reset with rndCount := s.rndCount }

/-- `loadProgram(bytes)` (R293, R294): the size is checked first; only MEM[0x200 ..] is written. -/
def State.loadProgram (s : State) (bytes : List Byte) : LoadResult × State :=
  if Config.memSize < Config.progBase + bytes.length then (.programTooLarge bytes.length, s)
  else (.ok, { s with mem := s.mem.putBytes Config.progBase bytes })

/-- `setKey(k, p)` (R245): KEY[k] <- p, and the first press of a wait is latched. -/
def State.setKey (s : State) (k : Key) (p : Bool) : State :=
  { s with
    keys := s.keys.set k.val p k.isLt,
    edge := if p ∧ s.waiting ≠ none ∧ s.edge = none then some k else s.edge }

/-- `requestQuit()` (R247): QUIT <- 1, a pending key wait abandoned; V and PC are not written. -/
def State.requestQuit (s : State) : State :=
  { s with
    quit := true, waiting := none,
    edge := if s.waiting ≠ none then none else s.edge }

/-- `getFramebuffer()` (R225): a copy of FB. -/
def State.getFramebuffer (s : State) : Framebuffer :=
  s.fb

/-- The host's actions (R40), with what the host passes. -/
inductive HostAction where
  | reinit
  | loadProgram (bytes : List Byte)
  | step (rnd : Byte)
  | setKey (code : Nat) (pressed : Bool)
  | requestQuit
  | getFramebuffer
deriving DecidableEq, Repr

/-- What an action returns (R40, R35). -/
inductive HostReply where
  | nothing
  | loaded (r : LoadResult)
  | stepped (outcome : StepOutcome) (redraw beep : Bool)
  | framebuffer (fb : Framebuffer)
deriving DecidableEq, Repr

/-- The core as the host holds it: nothing before the first `initialize()` (R295, D21). -/
abbrev Session := Option State

/-- The answer to an action: the state after it and the reply, a core that has no transition, or a refusal. -/
abbrev HostResult := Host.Outcome (State × HostReply) Fault Refusal

/-- The reply to `step()`: the outputs of the transition (R35). -/
def steppedReply : Result → HostResult
  | .next t => .next (t, .stepped t.outcome t.redraw t.beep)
  | .fault f => .fault f
  | .refused r => .refused r

/-- An action on an initialised core (R40). -/
def actOn (s : State) : HostAction → HostResult
  | .reinit => .next (s.reinitialised, .nothing)
  | .loadProgram bytes => .next ((s.loadProgram bytes).2, .loaded (s.loadProgram bytes).1)
  | .step rnd => steppedReply (coreStep rnd s)
  | .setKey code pressed =>
    if h : code < 16 then .next (s.setKey ⟨code, h⟩ pressed, .nothing) else .refused (.keyCodeOutOfRange code)
  | .requestQuit => .next (s.requestQuit, .nothing)
  | .getFramebuffer => .next (s, .framebuffer s.getFramebuffer)

/-- One host action (R40). Before the first `initialize()` there is no state, and everything else is refused (R295). -/
def hostAct (a : HostAction) : Session → HostResult
  | some s => actOn s a
  | none =>
    match a with
    | .reinit => .next (State.reset, .nothing)
    | .loadProgram _ => .refused .notInitialised
    | .step _ => .refused .notInitialised
    | .setKey _ _ => .refused .notInitialised
    | .requestQuit => .refused .notInitialised
    | .getFramebuffer => .refused .notInitialised

end Sys2Proof.Machine
end

