-- ==== Sys2Proof/Safety.lean ====
section
/-! DEFINITION. The terms claims are stated in: what is left of a state when an instruction writes only some of it, which CALLs the
open parameter governs, the bound of PC, and what a sprite covers. None of it is used by the machine. -/

namespace Sys2Proof.Machine

/-- `t` is `s` but for PC, and the instruction completed without a redraw. -/
def OnlyPcChanged (s t : State) : Prop :=
  t = { s with pc := t.pc, outcome := .ok, redraw := false }

/-- `t` is `s` but for its V registers and PC, and the instruction completed without a redraw. -/
def OnlyRegistersChanged (s t : State) : Prop :=
  t = { s with v := t.v, pc := t.pc, outcome := .ok, redraw := false }

/-- `t` is `s` but for I and PC, and the instruction completed without a redraw. -/
def OnlyIndexChanged (s t : State) : Prop :=
  t = { s with i := t.i, pc := t.pc, outcome := .ok, redraw := false }

/-- `t` is `s` but for MEM and PC, and the instruction completed without a redraw. -/
def OnlyMemoryChanged (s t : State) : Prop :=
  t = { s with mem := t.mem, pc := t.pc, outcome := .ok, redraw := false }

/-- `t` is `s` but for STACK, SP and PC, and the instruction completed without a redraw. -/
def OnlyStackChanged (s t : State) : Prop :=
  t = { s with stack := t.stack, sp := t.sp, pc := t.pc, outcome := .ok, redraw := false }

/-- PC of `t` is that of `s` advanced by `n`, mod 65536 (R124). -/
def PcAdvancedBy (n : Nat) (s t : State) : Prop :=
  t.pc.toNat = (s.pc.toNat + n) % 65536

/-- In `t`, V[x] holds `b` and every other V register is as in `s`. -/
def OnlyRegisterIs (x : Reg) (b : Byte) (s t : State) : Prop :=
  ∀ r : Reg, t.reg r = if r = x then b else s.reg r

/-- An instruction answers `t`, in which only V[x] (now the byte of value `n`) and PC (now 2 more) are new. -/
def SetsRegister (i : Instr) (x : Reg) (n : Nat) (s : State) : Prop :=
  ∃ t, exec i s = .next t ∧ OnlyRegisterIs x (BitVec.ofNat 8 n) s t ∧ PcAdvancedBy 2 s t ∧ OnlyRegistersChanged s t

/-- An instruction answers `t`, in which only V[x] (now of value `n`), VF (now of value `f`) and PC (now 2 more) are new;
`x` is not VF. -/
def SetsRegisterAndFlag (i : Instr) (x : Reg) (n f : Nat) (s : State) : Prop :=
  ∃ t, exec i s = .next t ∧
    (∀ r : Reg, t.reg r = if r = x then BitVec.ofNat 8 n else if r = VF then BitVec.ofNat 8 f else s.reg r) ∧
    PcAdvancedBy 2 s t ∧ OnlyRegistersChanged s t

/-- An instruction answers `t`, in which only PC is new: 4 more when `c` holds, else 2 more. -/
def SkipsWhen (i : Instr) (c : Prop) (s : State) : Prop :=
  ∃ t, exec i s = .next t ∧ OnlyPcChanged s t ∧ (c → PcAdvancedBy 4 s t) ∧ (¬c → PcAdvancedBy 2 s t)

/-- An instruction completes with PC 4 more when `c` holds and else 2 more, and VF as it was. -/
def PcSkips (i : Instr) (c : Prop) (s : State) : Prop :=
  ∃ t, exec i s = .next t ∧ t.reg VF = s.reg VF ∧ (c → PcAdvancedBy 4 s t) ∧ (¬c → PcAdvancedBy 2 s t)

/-- A timer after one tick, on unbounded values (R125). -/
def ticked (t : Byte) : Byte :=
  BitVec.ofNat 8 (t.toNat - 1)

/-- The V registers an instruction may write (R20): the X of the forms that have it as destination, VF where the instruction
writes it as a flag, V0..VX of FX65. FX0A writes its X at the completion of the wait (R246), which is the cycle's. -/
def MayWriteRegister : Instr → Reg → Prop
  | .cls, _ => False
  | .ret, _ => False
  | .sys _, _ => False
  | .jp _, _ => False
  | .call _, _ => False
  | .seImm _ _, _ => False
  | .sneImm _ _, _ => False
  | .seReg _ _, _ => False
  | .ldImm x _, r => r = x
  | .addImm x _, r => r = x
  | .ldReg x _, r => r = x
  | .orReg x _, r => r = x
  | .andReg x _, r => r = x
  | .xorReg x _, r => r = x
  | .addReg x _, r => r = x ∨ r = VF
  | .subReg x _, r => r = x ∨ r = VF
  | .shr x _, r => r = x ∨ r = VF
  | .subn x _, r => r = x ∨ r = VF
  | .shl x _, r => r = x ∨ r = VF
  | .sneReg _ _, _ => False
  | .ldI _, _ => False
  | .jpV0 _, _ => False
  | .rnd x _, r => r = x
  | .drw _ _ _, r => r = VF
  | .skp _, _ => False
  | .sknp _, _ => False
  | .ldVDt x, r => r = x
  | .ldVK _, _ => False
  | .ldDtV _, _ => False
  | .ldStV _, _ => False
  | .addI _, r => r = VF
  | .ldF _, _ => False
  | .ldB _, _ => False
  | .storeRegs _, _ => False
  | .loadRegs x, r => r ≤ x

/-- A CALL that STACK_OVERFLOW_POLICY governs (R146). -/
def IsOverflowingCall (i : Instr) (s : State) : Prop :=
  s.sp.val = 16 ∧ ∃ nnn, i = .call nnn

/-- The next transition of `s` runs the instruction `i`: not halted, not waiting, both bytes at PC in memory, and the big-endian
word there decodes to `i` (R120 to R122). -/
def RunsNext (i : Instr) (s : State) : Prop :=
  s.quit = false ∧ s.waiting = none ∧ s.pc.toNat + 1 ≤ 4095 ∧
    dispatch (wordOfBytes (s.mem.byteAt s.pc.toNat) (s.mem.byteAt (s.pc.toNat + 1))) = some i

/-- The next transition of `s` is an overflowing CALL. -/
def StepIsOverflowingCall (s : State) : Prop :=
  ∃ nnn, RunsNext (.call nnn) s ∧ s.sp.val = 16

/-- PC and every return address are values the spec's bound of R22 allows, 8444 and 4096 at most, and the FX0A of a key wait is
at a PC it could be fetched from. -/
def PcBounded (s : State) : Prop :=
  s.pc.toNat ≤ 8444 ∧ (∀ k : Fin 16, (s.stack.get k).toNat ≤ 4096) ∧ (s.waiting ≠ none → s.pc.toNat ≤ 4094)

/-- The sprite of `rows` at origin (x, y) has a 1 bit on the pixel (px, py), bit 7 leftmost (R222); no wraparound. -/
def spriteBit (x y : Nat) (rows : List Byte) (px py : Nat) : Bool :=
  decide (x ≤ px ∧ px < x + 8 ∧ y ≤ py ∧ py < y + rows.length) && (rows.getD (py - y) 0).getLsbD (7 - (px - x))

end Sys2Proof.Machine
end

