-- ==== Sys2Proof/Certificates/Slice0/Obligations.lean ====
section
/-! DEFINITION. The statements for the provers. Each docstring names the rules it states or the sections it rests on; where a
clause rests on a decision the spec marks as its own (D<n> of 92_eei_decisions.md), or on a log entry, it says so. -/

open Sys2Proof Sys2Proof.Machine

/-! ### Encoding -/

/-- R90, R102, R103: the bytes of every well-formed instruction decode to it, at every operand value, and leave the rest. -/
def Obligations.DecodeOfEncodeIsTheInstruction : Prop :=
  ∀ (i : Instr) (rest : List Byte), i.wellFormed = true →
    decodeBytes (bytesOfWord (encode i) ++ rest) = .ok (i, rest)

/-- R102, R103: a word that decodes is the encoding of what it decodes to, so no two words decode to one
instruction and none is dropped. The term keeps the fields its meaning ignores, Y of 8XY6 and 8XYE and NNN of 0NNN: the model's
choice (log entry 11), for R105, R179 and R181 give words that differ only there one effect. -/
def Obligations.EncodeOfDecodeIsTheWord : Prop :=
  ∀ (w : Word) (i : Instr), dispatch w = some i → i.wellFormed = true ∧ encode i = w

/-- R103: a word is an instruction exactly when a row of the table selects it, and the rows select no word twice but for row
0NNN against rows 00E0 and 00EE. -/
def Obligations.RowsSelectExactlyTheInstructions : Prop :=
  (∀ w : Word, (dispatch w).isSome = true ↔ ∃ r ∈ opcodeRows, w &&& r.1 = r.2) ∧
  (∀ (w : Word) (j k : Fin 35), j < k → w &&& (opcodeRows.get (j.cast rfl)).1 = (opcodeRows.get (j.cast rfl)).2 →
    w &&& (opcodeRows.get (k.cast rfl)).1 = (opcodeRows.get (k.cast rfl)).2 → k = 2 ∧ (w = 0x00E0 ∨ w = 0x00EE))

/-- R91: the six fields are the fixed slices of the word. -/
def Obligations.DecoderFieldsAreFixedSlices : Prop :=
  ∀ w : Word,
    (decodeFields w).cls.toNat = w.toNat / 4096 ∧ (decodeFields w).address.toNat = w.toNat % 4096 ∧
    (decodeFields w).regX.val = w.toNat / 256 % 16 ∧ (decodeFields w).regY.val = w.toNat / 16 % 16 ∧
    (decodeFields w).imm8.toNat = w.toNat % 256 ∧ (decodeFields w).imm4.toNat = w.toNat % 16

/-- R96 to R99 and R102: what every word of every class decodes to; `c`, `x`, `y`, `n`, `nn`, `nnn` are the fields as numbers. -/
def Obligations.DispatchFollowsTheClassTables : Prop :=
  ∀ w : Word, ∀ c n k : Nat, ∀ x y : Reg, ∀ nn : Byte, ∀ nnn : BitVec 12, ∀ n4 : BitVec 4,
    c = w.toNat / 4096 → n = w.toNat % 16 → k = w.toNat % 256 →
    x.val = w.toNat / 256 % 16 → y.val = w.toNat / 16 % 16 → nn.toNat = k → nnn.toNat = w.toNat % 4096 → n4.toNat = n →
    (c = 0x0 → dispatch w = some (if w = 0x00E0 then .cls else if w = 0x00EE then .ret else .sys nnn)) ∧
    (c = 0x1 → dispatch w = some (.jp nnn)) ∧ (c = 0x2 → dispatch w = some (.call nnn)) ∧
    (c = 0x3 → dispatch w = some (.seImm x nn)) ∧ (c = 0x4 → dispatch w = some (.sneImm x nn)) ∧
    (c = 0x5 → dispatch w = if n = 0 then some (.seReg x y) else none) ∧
    (c = 0x6 → dispatch w = some (.ldImm x nn)) ∧ (c = 0x7 → dispatch w = some (.addImm x nn)) ∧
    (c = 0x8 → dispatch w =
      if n = 0 then some (.ldReg x y) else if n = 1 then some (.orReg x y) else if n = 2 then some (.andReg x y)
      else if n = 3 then some (.xorReg x y) else if n = 4 then some (.addReg x y) else if n = 5 then some (.subReg x y)
      else if n = 6 then some (.shr x y) else if n = 7 then some (.subn x y) else if n = 0xE then some (.shl x y)
      else none) ∧
    (c = 0x9 → dispatch w = if n = 0 then some (.sneReg x y) else none) ∧
    (c = 0xA → dispatch w = some (.ldI nnn)) ∧ (c = 0xB → dispatch w = some (.jpV0 nnn)) ∧
    (c = 0xC → dispatch w = some (.rnd x nn)) ∧ (c = 0xD → dispatch w = some (.drw x y n4)) ∧
    (c = 0xE → dispatch w = if k = 0x9E then some (.skp x) else if k = 0xA1 then some (.sknp x) else none) ∧
    (c = 0xF → dispatch w =
      if k = 0x07 then some (.ldVDt x) else if k = 0x0A then some (.ldVK x) else if k = 0x15 then some (.ldDtV x)
      else if k = 0x18 then some (.ldStV x) else if k = 0x1E then some (.addI x) else if k = 0x29 then some (.ldF x)
      else if k = 0x33 then some (.ldB x) else if k = 0x55 then some (.storeRegs x)
      else if k = 0x65 then some (.loadRegs x) else none)

/-- Words written out from 30_encoding.md and 95_test_vectors.md 2.1, one or more per family. -/
def Obligations.SampleWordsDecodeAsTheSpecSays : Prop :=
  decodeTableWord 16 0xD123 = some (.drw 1 2 3) ∧ decodeTableWord 16 0x8AB4 = some (.addReg 0xA 0xB) ∧
  decodeTableWord 16 0x00E0 = some .cls ∧ decodeTableWord 16 0x00EE = some .ret ∧
  decodeTableWord 16 0x00E1 = some (.sys 0x0E1) ∧ decodeTableWord 16 0x2300 = some (.call 0x300) ∧
  decodeTableWord 16 0xE29E = some (.skp 2) ∧ decodeTableWord 16 0xF065 = some (.loadRegs 0) ∧
  decodeTableWord 16 0xFFFF = none ∧ decodeTableWord 16 0x5121 = none

/-! ### Memory -/

/-- R62, R63: the byte ports; a write changes only MEM[a]. -/
def Obligations.BytePortsReadAndWriteOneByte : Prop :=
  ∀ (m : Memory) (a : Nat) (b : Byte),
    (4095 < a → m.read a = .error a ∧ m.write a b = .error a) ∧
    (a ≤ 4095 → m.read a = .ok (m.byteAt a) ∧
      ∃ m', m.write a b = .ok m' ∧ ∀ c, m'.byteAt c = if c = a then b else m.byteAt c)

/-- R206 and 92_eei_decisions.md D9, D10 (the spec's own decisions): a block of n bytes is accessed whole or not at all, and the
error names its lowest invalid address. -/
def Obligations.BlocksAreAccessedWholeOrNotAtAll : Prop :=
  ∀ (m : Memory) (a : Nat) (bs : List Byte), 0 < bs.length →
    (4095 < a + bs.length - 1 →
      m.writeBlock a bs = .error (max a 4096) ∧ m.readBlock a bs.length = .error (max a 4096)) ∧
    (a + bs.length - 1 ≤ 4095 →
      (∃ m', m.writeBlock a bs = .ok m' ∧
        ∀ c, m'.byteAt c = if a ≤ c ∧ c < a + bs.length then bs.getD (c - a) 0 else m.byteAt c) ∧
      ∃ rs, m.readBlock a bs.length = .ok rs ∧ rs.length = bs.length ∧
        ∀ k, k < bs.length → rs.getD k 0 = m.byteAt (a + k))

/-- R64: the fetch is big-endian, with MEM[a] the high byte. -/
def Obligations.FetchIsBigEndian : Prop :=
  ∀ (m : Memory) (a : Nat), a + 1 ≤ 4095 →
    ∃ w, m.fetch a = .ok w ∧ w.toNat = 256 * (m.byteAt a).toNat + (m.byteAt (a + 1)).toNat

/-- R75 through FX55: the word a store writes is what a fetch at its address gives, with no delay (D24). -/
def Obligations.AStoredWordIsTheWordFetchedNext : Prop :=
  ∀ (x : Reg) (s : State), 1 ≤ x.val → s.i.toNat + x.val ≤ 4095 →
    ∃ t, exec (.storeRegs x) s = .next t ∧ t.mem.fetch s.i.toNat = .ok (wordOfBytes (s.reg 0) (s.reg 1))

/-! ### The step -/

/-- R120 to R123, R125, R244: a step runs the decoded instruction; around it stands only the tick (none after `suspended`), the
outputs of the tick, and the use of the step's random byte in the model's own fields (log entry 4). -/
def Obligations.StepRunsTheDecodedInstruction : Prop :=
  ∀ (i : Instr) (s t : State), RunsNext i s → exec i s = .next t →
    step s = .next
      (if t.outcome = .suspended then { t with beep := false, rndIn := none, rndCount := t.rndCount + 1 }
       else { t with
              beep := decide (t.st.toNat = 1), dt := ticked t.dt, st := ticked t.st,
              rndIn := none, rndCount := t.rndCount + 1 })

/-- R261 with R262 and R131 (D9, D11, the spec's own decisions, for what R261 does not list: KEY, QUIT and redraw): a word no row
selects makes the step end in InvalidOpcode(w); nothing changes but the tick and the use of the random byte, which the model
counts in fields of its own (log entry 4); and the next step reports the same error again. -/
def Obligations.AnInvalidWordIsReportedAndChangesNothing : Prop :=
  ∀ (s : State) (w : Word), s.quit = false → s.waiting = none → s.pc.toNat + 1 ≤ 4095 →
    w = wordOfBytes (s.mem.byteAt s.pc.toNat) (s.mem.byteAt (s.pc.toNat + 1)) → dispatch w = none →
    ∃ t u, step s = .next t ∧
      t = { s with
            outcome := .invalidOpcode w, redraw := false, beep := decide (s.st.toNat = 1), dt := ticked s.dt,
            st := ticked s.st, rndIn := none, rndCount := s.rndCount + 1 } ∧
      step t = .next u ∧ u.outcome = .invalidOpcode w ∧ u.pc = s.pc

/-- R65 and R121, with D10 (the spec's own decision): a fetch beyond memory reports the lowest invalid address, changes nothing
but the tick and the model's random-byte fields (log entry 4), and the machine goes on. -/
def Obligations.AFetchBeyondMemoryIsReported : Prop :=
  ∀ s : State, s.quit = false → s.waiting = none → 4095 < s.pc.toNat + 1 →
    step s = .next
      { s with
        outcome := .outOfBounds .memory (if 4095 < s.pc.toNat then s.pc.toNat else 4096), redraw := false,
        beep := decide (s.st.toNat = 1), dt := ticked s.dt, st := ticked s.st, rndIn := none,
        rndCount := s.rndCount + 1 }

/-- R130: with QUIT = 1 the core has no transition, whatever else holds; that a step then answers the fault `quitHalt` is the
model's choice (log entry 8). -/
def Obligations.AQuitCoreHasNoTransition : Prop :=
  ∀ (s : State) (rnd : Byte), s.quit = true → step s = .fault .quitHalt ∧ coreStep rnd s = .fault .quitHalt

/-- R129 and R246 with D17 (the spec's own decision): a waiting core fetches nothing; with no edge it has no transition (log
entry 8), and with an edge k it completes the FX0A: V[x] ← k, PC + 2, the wait over, one tick, and the step's random byte used up in the model's own fields (log entry 4). -/
def Obligations.AWaitingCoreHoldsOrCompletes : Prop :=
  ∀ (s : State) (x : Reg), s.quit = false → s.waiting = some x →
    (s.edge = none → step s = .fault .keyWaitHold) ∧
    (∀ k, s.edge = some k → ∃ t, step s = .next t ∧ OnlyRegisterIs x (BitVec.ofNat 8 k.val) s t ∧ PcAdvancedBy 2 s t ∧
      t = { s with
            v := t.v, pc := t.pc, waiting := none, edge := none, outcome := .ok, redraw := false,
            beep := decide (s.st.toNat = 1), dt := ticked s.dt, st := ticked s.st, rndIn := none,
            rndCount := s.rndCount + 1 })

/-- R262, R267 and R131 (D9, D11, the spec's own decisions): over all states and all instructions, a step that ends in an error
leaves everything as it was but the tick, the outputs and the model's random-byte fields (log entry 4). -/
def Obligations.AStepThatErrsChangesOnlyTheTick : Prop :=
  ∀ s t : State, step s = .next t → t.outcome.isError = true →
    t = { s with
          outcome := t.outcome, redraw := false, beep := decide (s.st.toNat = 1), dt := ticked s.dt, st := ticked s.st,
          rndIn := none, rndCount := s.rndCount + 1 }

/-- R125, R126: a step that runs an instruction other than FX15, FX18 and FX0A ticks both timers once and beeps exactly when ST
was 1. The CALL with SP = 16 is left to STACK_OVERFLOW_POLICY (R146). -/
def Obligations.EveryStepTicksTheTimersOnce : Prop :=
  ∀ (i : Instr) (s t : State), RunsNext i s → (∀ x, i ≠ .ldDtV x ∧ i ≠ .ldStV x ∧ i ≠ .ldVK x) →
    ¬IsOverflowingCall i s → step s = .next t →
    t.dt = ticked s.dt ∧ t.st = ticked s.st ∧ (t.beep = true ↔ s.st.toNat = 1)

/-- R127 with D14 (the spec's own decision): redraw is 1 exactly after 00E0 or DXYN without an error. -/
def Obligations.RedrawExactlyAfterADrawingStep : Prop :=
  ∀ s t : State, step s = .next t →
    (t.redraw = true ↔ t.outcome = .ok ∧ (RunsNext .cls s ∨ ∃ x y n, RunsNext (.drw x y n) s))

/-- R35: the outputs are not state; no step depends on those of the step before. -/
def Obligations.NoStepReadsTheOutputs : Prop :=
  ∀ (s : State) (o : StepOutcome) (r b : Bool), step { s with outcome := o, redraw := r, beep := b } = step s

/-- R39: the random byte is ignored by every step but one that runs CXNN. -/
def Obligations.OnlyRndReadsTheRandomByte : Prop :=
  ∀ (s : State) (a b : Byte), (∀ x nn, ¬RunsNext (.rnd x nn) s) → coreStep a s = coreStep b s

/-! ### Invariants and whole-machine rules -/

/-- Memory stays in its canonical form (log entry 6) and EDGE is none whenever WAIT is none (R32), after every step from every
state where they hold; under any STACK_OVERFLOW_POLICY (log entry 2). -/
def Obligations.EveryStepKeepsAStateLegal : Prop :=
  ∀ s t : State, s.legal → step s = .next t → t.legal

/-- R41, R290: the state after initialize() is legal, its PC is bounded, and it holds the table's values; MEM is FONT, whatever
its bytes are (R6, R292; log entry 1), and then 0; KEY, WAIT, EDGE and QUIT are zeroed by D21 (the spec's own decision). -/
def Obligations.ResetHoldsTheTableValues : Prop :=
  State.reset.legal ∧ PcBounded State.reset ∧ State.reset.pc = 0x200 ∧ State.reset.i = 0 ∧ State.reset.sp = 0 ∧
  State.reset.dt = 0 ∧ State.reset.st = 0 ∧ State.reset.waiting = none ∧ State.reset.edge = none ∧
  State.reset.quit = false ∧ (∀ r, State.reset.reg r = 0) ∧ (∀ k, State.reset.stack.get k = 0) ∧
  (∀ k, State.reset.key k = false) ∧ (∀ x y, pixel State.reset.fb x y = false) ∧
  ∀ a, State.reset.mem.byteAt a = if h : a < 80 then font[a] else 0

/-- The same invariant under every host action (R40), from no state at all or from a legal one. -/
def Obligations.EveryHostActionKeepsAStateLegal : Prop :=
  ∀ (a : HostAction) (h : Session) (t : State) (r : HostReply), (∀ s, h = some s → s.legal) →
    hostAct a h = .next (t, r) → t.legal

/-- R22 and R124: PC never exceeds 8444 and no return address exceeds 4096, so PC never wraps. The CALL with SP = 16 is left to
STACK_OVERFLOW_POLICY (R146). -/
def Obligations.PcStaysBounded : Prop :=
  ∀ s t : State, PcBounded s → ¬StepIsOverflowingCall s → step s = .next t → PcBounded t

/-- R28, R33, R40: no step writes KEY or QUIT; only the host does. The CALL with SP = 16 is left to STACK_OVERFLOW_POLICY. -/
def Obligations.NoStepWritesKeysOrQuit : Prop :=
  ∀ s t : State, ¬StepIsOverflowingCall s → step s = .next t → t.keys = s.keys ∧ t.quit = s.quit

/-- R9 with D2 (the spec's own decision), R20 to R28, R31, R32, R60, R220: over all instructions, each piece of state is written
only by the instructions the spec names for it: each V register by the forms that name it as X, VF by the flag-writing ones and
V0..VX by FX65 (R20); PC by none that does not complete. The CALL with SP = 16 is left to STACK_OVERFLOW_POLICY. The tick and the
completion of an FX0A are the cycle's. -/
def Obligations.EachPieceOfStateHasItsWriters : Prop :=
  ∀ (i : Instr) (s t : State), ¬IsOverflowingCall i s → exec i s = .next t →
    (∀ r : Reg, ¬MayWriteRegister i r → t.reg r = s.reg r) ∧
    (t.outcome ≠ .ok → t.pc = s.pc) ∧
    ((∀ x, i ≠ .ldB x ∧ i ≠ .storeRegs x) → t.mem = s.mem) ∧
    (i ≠ .cls → (∀ x y n, i ≠ .drw x y n) → t.fb = s.fb) ∧
    (i ≠ .ret → (∀ nnn, i ≠ .call nnn) → t.sp = s.sp) ∧
    ((∀ nnn, i ≠ .call nnn) → t.stack = s.stack) ∧
    ((∀ nnn, i ≠ .ldI nnn) → (∀ x, i ≠ .addI x ∧ i ≠ .ldF x) → t.i = s.i) ∧
    ((∀ x, i ≠ .ldDtV x) → t.dt = s.dt) ∧ ((∀ x, i ≠ .ldStV x) → t.st = s.st) ∧
    ((∀ x, i ≠ .ldVK x) → t.waiting = s.waiting ∧ t.edge = s.edge) ∧ t.keys = s.keys ∧ t.quit = s.quit

/-- R270: every instruction answers a next state in every state; none stops the machine. -/
def Obligations.NoInstructionStopsTheMachine : Prop :=
  ∀ (i : Instr) (s : State), ∃ t, exec i s = .next t

/-! ### Control transfer -/

/-- R144, R151: JP goes to NNN; JP V0 to PC + NNN + V[0], from the address of the BNNN itself; VF is not written. -/
def Obligations.JumpsGoWhereTheirRulesSay : Prop :=
  ∀ (nnn : BitVec 12) (s : State),
    (∃ t, exec (.jp nnn) s = .next t ∧ t.reg VF = s.reg VF ∧ t.pc.toNat = nnn.toNat) ∧
    (∃ t, exec (.jpV0 nnn) s = .next t ∧ t.reg VF = s.reg VF ∧
      t.pc.toNat = (s.pc.toNat + nnn.toNat + (s.reg 0).toNat) % 65536)

/-- R143 and R142 with D5 (the spec's own decision): 0NNN, and 00EE with an empty stack, only advance PC by 2. -/
def Obligations.NoOpsOnlyAdvancePc : Prop :=
  ∀ (nnn : BitVec 12) (s : State),
    (∃ t, exec (.sys nnn) s = .next t ∧ OnlyPcChanged s t ∧ PcAdvancedBy 2 s t) ∧
    (s.sp.val = 0 → ∃ t, exec .ret s = .next t ∧ OnlyPcChanged s t ∧ PcAdvancedBy 2 s t)

/-- R142 with D6 (the spec's own decision): RET with entries takes PC from STACK[SP − 1], and SP down by 1; the entry stays. -/
def Obligations.ReturnPopsTheCallStack : Prop :=
  ∀ (s : State) (k : Fin 16), s.sp.val = k.val + 1 →
    ∃ t, exec .ret s = .next t ∧ t.pc = s.stack.get k ∧ t.sp.val = k.val ∧ t.stack = s.stack ∧ OnlyStackChanged s t

/-- R145 with D6 (the spec's own decision): CALL with room stores PC + 2 at STACK[SP], leaves the other entries, and goes to
NNN. -/
def Obligations.CallPushesTheReturnAddress : Prop :=
  ∀ (nnn : BitVec 12) (s : State) (k : Fin 16), s.sp.val = k.val →
    ∃ t, exec (.call nnn) s = .next t ∧ t.pc.toNat = nnn.toNat ∧ t.sp.val = k.val + 1 ∧
      (t.stack.get k).toNat = (s.pc.toNat + 2) % 65536 ∧ (∀ j, j ≠ k → t.stack.get j = s.stack.get j) ∧
      OnlyStackChanged s t

/-- R146, R264 with D7 (an OPEN parameter of the spec; log entry 2): with SP = 16 the CALL under `fault` raises StackOverflow and
changes nothing; under `other f` its effect is f's and no error is raised; and the machine's CALL is the CALL of one policy,
the same in every state. -/
def Obligations.AnOverflowingCallFollowsThePolicy : Prop :=
  (∃ p : OverflowPolicy, ∀ (nnn : BitVec 12) (s : State), exec (.call nnn) s = callWith p nnn s) ∧
  ∀ (nnn : BitVec 12) (s : State), s.sp.val = 16 →
    callWith .fault nnn s = .next { s with outcome := .stackOverflow, redraw := false } ∧
    ∀ (f : BitVec 12 → State → State) (keeps : ∀ n u, State.legal u → State.legal (f n u)),
      ∃ t, callWith (.other f keeps) nnn s = .next t ∧ t.architectural = (f nnn s.architectural).architectural ∧
        t.outcome = .ok ∧ t.redraw = false ∧ t.rndCount = s.rndCount

/-- R145 then R142 (E8): a CALL with room and then a RET comes back to the instruction after the CALL, SP as before. -/
def Obligations.CallThenReturnComesBack : Prop :=
  ∀ (nnn : BitVec 12) (s t : State), s.sp.val < 16 → exec (.call nnn) s = .next t →
    ∃ u, exec .ret t = .next u ∧ PcAdvancedBy 2 s u ∧ u.sp = s.sp ∧ OnlyStackChanged s u

/-- R147 to R150: the skips on registers and immediates; a 5XYn or 9XYn with n ≠ 0 is no instruction. -/
def Obligations.RegisterSkipsFollowTheirConditions : Prop :=
  (∀ (x y : Reg) (nn : Byte) (s : State),
    PcSkips (.seImm x nn) (s.reg x = nn) s ∧ PcSkips (.sneImm x nn) (s.reg x ≠ nn) s ∧
    PcSkips (.seReg x y) (s.reg x = s.reg y) s ∧ PcSkips (.sneReg x y) (s.reg x ≠ s.reg y) s) ∧
  ∀ w : Word, (w.toNat / 4096 = 5 ∨ w.toNat / 4096 = 9) → w.toNat % 16 ≠ 0 → dispatch w = none

/-! ### Registers, ALU, random -/

/-- R171, R172: LD and ADD with an immediate; the sum wraps mod 256, and VF is not written unless it is V[X]. -/
def Obligations.ImmediateLoadAndAddSetOneRegister : Prop :=
  ∀ (x : Reg) (nn : Byte) (s : State),
    (∃ t, exec (.ldImm x nn) s = .next t ∧ t.reg x = nn ∧ PcAdvancedBy 2 s t ∧ (x ≠ VF → t.reg VF = s.reg VF)) ∧
    (∃ t, exec (.addImm x nn) s = .next t ∧ (t.reg x).toNat = ((s.reg x).toNat + nn.toNat) % 256 ∧
      PcAdvancedBy 2 s t ∧ (x ≠ VF → t.reg VF = s.reg VF))

/-- R9 with D2 (the spec's own decision): the jumps and the skips on registers change PC alone, LD and ADD with an immediate
V[X] and PC alone, LD I and LD F I and PC alone. -/
def Obligations.JumpsSkipsAndLoadsChangeNothingElse : Prop :=
  ∀ (x y : Reg) (nn : Byte) (nnn : BitVec 12) (i : Instr) (s t : State), exec i s = .next t →
    (i ∈ [Instr.jp nnn, .jpV0 nnn, .seImm x nn, .sneImm x nn, .seReg x y, .sneReg x y] → OnlyPcChanged s t) ∧
    (i ∈ [Instr.ldImm x nn, .addImm x nn] → OnlyRegistersChanged s t ∧ ∀ r, r ≠ x → t.reg r = s.reg r) ∧
    (i ∈ [Instr.ldI nnn, .ldF x] → OnlyIndexChanged s t)

/-- R173 to R176, with PC + 2 by D4 (the spec's own decision): LD, OR, AND, XOR of registers; VF is not reset. -/
def Obligations.CopyAndLogicSetOneRegister : Prop :=
  ∀ (x y : Reg) (s : State),
    SetsRegister (.ldReg x y) x (s.reg y).toNat s ∧
    SetsRegister (.orReg x y) x ((s.reg x).toNat ||| (s.reg y).toNat) s ∧
    SetsRegister (.andReg x y) x ((s.reg x).toNat &&& (s.reg y).toNat) s ∧
    SetsRegister (.xorReg x y) x ((s.reg x).toNat ^^^ (s.reg y).toNat) s

/-- R177 to R181 where neither operand is VF, with PC + 2 by D4 (the spec's own decision): results mod 256 and the flags on
unbounded values; SHL's flag is the raw 0x80, and SHR and SHL do not look at Y, which may be VF. -/
def Obligations.FlagArithmeticWithoutVfOperands : Prop :=
  ∀ (x y : Reg) (s : State) (a b : Nat), x ≠ VF → a = (s.reg x).toNat → b = (s.reg y).toNat →
    (y ≠ VF →
      SetsRegisterAndFlag (.addReg x y) x ((a + b) % 256) (if 255 < a + b then 1 else 0) s ∧
      SetsRegisterAndFlag (.subReg x y) x ((256 + a - b) % 256) (if a < b then 0 else 1) s ∧
      SetsRegisterAndFlag (.subn x y) x ((256 + b - a) % 256) (if b < a then 0 else 1) s) ∧
    SetsRegisterAndFlag (.shr x y) x (a / 2) (a % 2) s ∧
    SetsRegisterAndFlag (.shl x y) x (a * 2 % 256) (if 128 ≤ a then 128 else 0) s

/-- R183, the whole table, with D3 and D4 (the spec's own decisions): what 8XY4 to 8XYE leave when X or Y is VF. With X = F, VF
holds the result, computed after the flag; with Y = F and X ≠ F, the result reads the flag just written. -/
def Obligations.FlagArithmeticWithVfOperands : Prop :=
  ∀ (x y : Reg) (s : State) (vx vy vf : Nat), x ≠ VF → y ≠ VF →
    vx = (s.reg x).toNat → vy = (s.reg y).toNat → vf = (s.reg VF).toNat →
    (SetsRegister (.addReg VF y) VF (((if 255 < vf + vy then 1 else 0) + vy) % 256) s ∧
      SetsRegister (.subReg VF y) VF ((256 + (if vf < vy then 0 else 1) - vy) % 256) s ∧
      SetsRegister (.shr VF y) VF 0 s ∧
      SetsRegister (.subn VF y) VF ((256 + vy - (if vy < vf then 0 else 1)) % 256) s ∧
      SetsRegister (.shl VF y) VF 0 s) ∧
    (SetsRegisterAndFlag (.addReg x VF) x ((vx + (if 255 < vx + vf then 1 else 0)) % 256)
        (if 255 < vx + vf then 1 else 0) s ∧
      SetsRegisterAndFlag (.subReg x VF) x ((256 + vx - (if vx < vf then 0 else 1)) % 256) (if vx < vf then 0 else 1) s ∧
      SetsRegisterAndFlag (.shr x VF) x (vx / 2) (vx % 2) s ∧
      SetsRegisterAndFlag (.subn x VF) x ((256 + (if vf < vx then 0 else 1) - vx) % 256) (if vf < vx then 0 else 1) s ∧
      SetsRegisterAndFlag (.shl x VF) x (vx * 2 % 256) (if 128 ≤ vx then 128 else 0) s) ∧
    (SetsRegister (.addReg VF VF) VF (2 * (if 255 < 2 * vf then 1 else 0)) s ∧ SetsRegister (.subReg VF VF) VF 0 s ∧
      SetsRegister (.shr VF VF) VF 0 s ∧ SetsRegister (.subn VF VF) VF 0 s ∧ SetsRegister (.shl VF VF) VF 0 s)

/-- R182, with PC + 2 by D4 (the spec's own decision): V[X] is the step's random byte masked by NN, whatever that byte is; and
the byte the host passes to a step is the one used. -/
def Obligations.RandomByteIsMaskedIntoTheRegister : Prop :=
  ∀ (x : Reg) (nn : Byte) (s : State),
    SetsRegister (.rnd x nn) x (s.rnd.toNat &&& nn.toNat) s ∧
    ∀ b : Byte, RunsNext (.rnd x nn) s →
      ∃ t, coreStep b s = .next t ∧ (t.reg x).toNat = b.toNat &&& nn.toNat ∧ PcAdvancedBy 2 s t

/-! ### Index register and memory transfer -/

/-- R200, R202: LD I takes NNN; LD F takes V[X] · 5, not masked; VF is not written. -/
def Obligations.IndexLoadsTakeTheirOperand : Prop :=
  ∀ (nnn : BitVec 12) (x : Reg) (s : State),
    (∃ t, exec (.ldI nnn) s = .next t ∧ t.i.toNat = nnn.toNat ∧ PcAdvancedBy 2 s t ∧ t.reg VF = s.reg VF) ∧
    (∃ t, exec (.ldF x) s = .next t ∧ t.i.toNat = (s.reg x).toNat * 5 ∧ PcAdvancedBy 2 s t ∧ t.reg VF = s.reg VF)

/-- R201 with D3 (the spec's own decision): VF is the carry out of 16 bits, then I grows by V[X], which for X = F is that
carry. -/
def Obligations.IndexAddSetsTheWideCarry : Prop :=
  ∀ (x : Reg) (s : State) (c : Nat), c = (if 0xFFFF < s.i.toNat + (s.reg x).toNat then 1 else 0) →
    ∃ t, exec (.addI x) s = .next t ∧ OnlyRegisterIs VF (BitVec.ofNat 8 c) s t ∧
      t.i.toNat = (s.i.toNat + if x = VF then c else (s.reg x).toNat) % 65536 ∧ PcAdvancedBy 2 s t ∧
      t = { s with v := t.v, i := t.i, pc := t.pc, outcome := .ok, redraw := false }

/-- R203: with the block in memory, BCD writes the hundreds, tens and ones of V[X] at I, I + 1, I + 2 and no other byte. -/
def Obligations.BcdWritesThreeDigits : Prop :=
  ∀ (x : Reg) (s : State), s.i.toNat + 2 ≤ 4095 →
    ∃ t, exec (.ldB x) s = .next t ∧ OnlyMemoryChanged s t ∧ PcAdvancedBy 2 s t ∧
      (t.mem.byteAt s.i.toNat).toNat = (s.reg x).toNat / 100 ∧
      (t.mem.byteAt (s.i.toNat + 1)).toNat = (s.reg x).toNat / 10 % 10 ∧
      (t.mem.byteAt (s.i.toNat + 2)).toNat = (s.reg x).toNat % 10 ∧
      ∀ a, a < s.i.toNat ∨ s.i.toNat + 2 < a → t.mem.byteAt a = s.mem.byteAt a

/-- R204: with the block in memory, FX55 writes V[k] at I + k for k = 0 .. X and no other byte; I is not changed. -/
def Obligations.BlockStoreWritesTheRegisters : Prop :=
  ∀ (x : Reg) (s : State), s.i.toNat + x.val ≤ 4095 →
    ∃ t, exec (.storeRegs x) s = .next t ∧ OnlyMemoryChanged s t ∧ PcAdvancedBy 2 s t ∧
      (∀ k : Reg, k ≤ x → t.mem.byteAt (s.i.toNat + k.val) = s.reg k) ∧
      ∀ a, a < s.i.toNat ∨ s.i.toNat + x.val < a → t.mem.byteAt a = s.mem.byteAt a

/-- R205: with the block in memory, FX65 loads V[k] from I + k for k = 0 .. X and no other register; I is not changed. -/
def Obligations.BlockLoadReadsTheRegisters : Prop :=
  ∀ (x : Reg) (s : State), s.i.toNat + x.val ≤ 4095 →
    ∃ t, exec (.loadRegs x) s = .next t ∧ OnlyRegistersChanged s t ∧ PcAdvancedBy 2 s t ∧
      ∀ r : Reg, t.reg r = if r ≤ x then s.mem.byteAt (s.i.toNat + r.val) else s.reg r

/-- R203 to R205 and R224 with R206, D9, D10 and D12 (the spec's own decisions): where a block reaches beyond memory, each of
the four reports the lowest invalid address and changes nothing; DXYN too, clipped rows included, unless N = 0. -/
def Obligations.BlocksBeyondMemoryAreReported : Prop :=
  ∀ (x y : Reg) (n : BitVec 4) (s u : State),
    u = { s with outcome := .outOfBounds .memory (max s.i.toNat 4096), redraw := false } →
    (4095 < s.i.toNat + 2 → exec (.ldB x) s = .next u) ∧
    (4095 < s.i.toNat + x.val → exec (.storeRegs x) s = .next u ∧ exec (.loadRegs x) s = .next u) ∧
    (0 < n.toNat → 4095 < s.i.toNat + n.toNat - 1 → exec (.drw x y n) s = .next u)

/-! ### Display -/

/-- R223, with PC + 2 by D4 and redraw by D14 (the spec's own decisions): CLS turns every pixel off and touches nothing else. -/
def Obligations.ClearTurnsEveryPixelOff : Prop :=
  ∀ s : State, ∃ t, exec .cls s = .next t ∧ (∀ x y, pixel t.fb x y = false) ∧ PcAdvancedBy 2 s t ∧
    t = { s with fb := t.fb, pc := t.pc, outcome := .ok, redraw := true }

/-- The loop of R222 in closed form, inferred from it: a pixel of the grid is flipped exactly where the unclipped sprite has a 1
bit, and there is a collision exactly when such a pixel was lit. -/
def Obligations.CompositeFlipsTheSpriteAndReportsCollisions : Prop :=
  ∀ (x y : Nat) (rows : List Byte) (fb : Framebuffer),
    (∀ px py, px < 64 → py < 32 →
      pixel (composite x y rows fb).1 px py = (pixel fb px py ^^ spriteBit x y rows px py)) ∧
    ((composite x y rows fb).2 = true ↔
      ∃ px py, px < 64 ∧ py < 32 ∧ spriteBit x y rows px py = true ∧ pixel fb px py = true)

/-- R224 with D4, D12, D13, D14 (the spec's own decisions): DRW draws the N bytes at I at the origin V[X], V[Y] as it was before
VF is cleared; VF is the collision; only FB, VF and PC change. -/
def Obligations.DrawComposesTheSpriteAtI : Prop :=
  ∀ (x y : Reg) (n : BitVec 4) (s : State) (rows : List Byte), n.toNat = 0 ∨ s.i.toNat + n.toNat - 1 ≤ 4095 →
    rows = (List.range n.toNat).map (fun r => s.mem.byteAt (s.i.toNat + r)) →
    ∃ t, exec (.drw x y n) s = .next t ∧
      t.fb = (composite (s.reg x).toNat (s.reg y).toNat rows s.fb).1 ∧
      OnlyRegisterIs VF (if (composite (s.reg x).toNat (s.reg y).toNat rows s.fb).2 then 1 else 0) s t ∧
      PcAdvancedBy 2 s t ∧ t = { s with v := t.v, fb := t.fb, pc := t.pc, outcome := .ok, redraw := true }

/-- R222, R224: the same sprite drawn twice at one place restores FB, and the second draw collides exactly when some unclipped 1
bit of the sprite fell on a pixel that was off before the first (log entry 7). -/
def Obligations.DrawingTwiceRestoresTheFramebuffer : Prop :=
  ∀ (x y : Nat) (rows : List Byte) (fb : Framebuffer),
    (composite x y rows (composite x y rows fb).1).1 = fb ∧
    ((composite x y rows (composite x y rows fb).1).2 = true ↔
      ∃ px py, px < 64 ∧ py < 32 ∧ spriteBit x y rows px py = true ∧ pixel fb px py = false)

/-! ### Keys and timers -/

/-- R240, R241 for a key code in V[X]: SKP skips when the key is pressed, SKNP when it is not. -/
def Obligations.KeySkipsReadTheKey : Prop :=
  ∀ (x : Reg) (k : Key) (s : State), (s.reg x).toNat = k.val →
    SkipsWhen (.skp x) (s.key k = true) s ∧ SkipsWhen (.sknp x) (s.key k = false) s

/-- R240, R241 with D15 (the spec's own decision): a code above 15 is reported as OutOfBounds(keypad, k), with no state
change. -/
def Obligations.AKeyCodeAboveFifteenIsReported : Prop :=
  ∀ (x : Reg) (s u : State), 15 < (s.reg x).toNat →
    u = { s with outcome := .outOfBounds .keypad (s.reg x).toNat, redraw := false } →
    exec (.skp x) s = .next u ∧ exec (.sknp x) s = .next u

/-- R242, R249, R250 as instructions: FX07 reads DT; FX15 and FX18 write DT and ST; nothing else but PC changes. -/
def Obligations.TimerInstructionsMoveTheTimers : Prop :=
  ∀ (x : Reg) (s : State),
    SetsRegister (.ldVDt x) x s.dt.toNat s ∧
    (∃ t, exec (.ldDtV x) s = .next t ∧ t.dt = s.reg x ∧ PcAdvancedBy 2 s t ∧
      t = { s with dt := t.dt, pc := t.pc, outcome := .ok, redraw := false }) ∧
    (∃ t, exec (.ldStV x) s = .next t ∧ t.st = s.reg x ∧ PcAdvancedBy 2 s t ∧
      t = { s with st := t.st, pc := t.pc, outcome := .ok, redraw := false })

/-- The corner cases of R242, R249, R250 with R125: over a whole step, FX07 reads DT before its own tick; a timer just written
is ticked at once; and FX18 beeps in its own step exactly when V[X] is 1. -/
def Obligations.ATimerWriteIsTickedInItsOwnStep : Prop :=
  ∀ (x : Reg) (s : State),
    (RunsNext (.ldVDt x) s → ∃ t, step s = .next t ∧ t.reg x = s.dt ∧ t.dt = ticked s.dt) ∧
    (RunsNext (.ldDtV x) s → ∃ t, step s = .next t ∧ t.dt.toNat = (s.reg x).toNat - 1) ∧
    (RunsNext (.ldStV x) s → ∃ t, step s = .next t ∧ t.st.toNat = (s.reg x).toNat - 1 ∧
      (t.beep = true ↔ (s.reg x).toNat = 1))

/-- R244 with D17 (the spec's own decision): the FX0A entry sets WAIT to X and EDGE to none, outcome suspended, and changes
nothing else; the step that runs it does not tick, and uses up its random byte in the model's own fields (log entry 4). -/
def Obligations.KeyWaitEntrySuspendsWithoutATick : Prop :=
  ∀ (x : Reg) (s : State),
    exec (.ldVK x) s = .next { s with waiting := some x, edge := none, outcome := .suspended, redraw := false } ∧
    (RunsNext (.ldVK x) s → step s = .next
      { s with
        waiting := some x, edge := none, outcome := .suspended, redraw := false, beep := false, rndIn := none,
        rndCount := s.rndCount + 1 })

/-- R243 to R248 with D17 (the spec's own decision): from the entry of an FX0A, one press reported by the host and one more
transition give V[X] the key code, PC + 2, one tick for the whole of it, and the wait over. -/
def Obligations.AKeyWaitEndsWithTheKeyReported : Prop :=
  ∀ (x : Reg) (k : Key) (s t : State), RunsNext (.ldVK x) s → step s = .next t →
    ∃ u, step (t.setKey k true) = .next u ∧ OnlyRegisterIs x (BitVec.ofNat 8 k.val) s u ∧ PcAdvancedBy 2 s u ∧
      u.dt = ticked s.dt ∧ u.st = ticked s.st ∧ (u.beep = true ↔ s.st.toNat = 1) ∧ u.waiting = none ∧ u.edge = none ∧
      u.outcome = .ok ∧ u.key k = true

/-! ### The host -/

/-- R245 with D17 (the spec's own decision): setKey writes the one key, and latches the first press of a wait and no other. -/
def Obligations.SetKeyLatchesTheFirstPress : Prop :=
  ∀ (k : Key) (p : Bool) (s t : State), t = s.setKey k p →
    (∀ j, t.key j = if j = k then p else s.key j) ∧
    ((p = true ∧ s.waiting.isSome = true ∧ s.edge = none) → t.edge = some k) ∧
    (¬(p = true ∧ s.waiting.isSome = true ∧ s.edge = none) → t.edge = s.edge) ∧
    t = { s with keys := t.keys, edge := t.edge }

/-- R247 with D18 (the spec's own decision): requestQuit sets QUIT and abandons a key wait, V and PC unwritten; no transition
exists afterwards. -/
def Obligations.RequestQuitAbandonsTheWaitAndHalts : Prop :=
  ∀ s t : State, t = s.requestQuit →
    t.quit = true ∧ t.waiting = none ∧ (s.waiting.isSome = true → t.edge = none) ∧
    (s.waiting = none → t.edge = s.edge) ∧
    t = { s with quit := t.quit, waiting := t.waiting, edge := t.edge } ∧ step t = .fault .quitHalt

/-- R293, R294 with D22 (the spec's own decision): a program of at most 3584 bytes is placed at 0x200 verbatim and nothing else
changes; a longer one is refused with its length and nothing is written. -/
def Obligations.LoadProgramPlacesTheBytesOrRefuses : Prop :=
  ∀ (s t : State) (bs : List Byte) (r : LoadResult), (r, t) = s.loadProgram bs →
    (3584 < bs.length → r = .programTooLarge bs.length ∧ t = s) ∧
    (bs.length ≤ 3584 → r = .ok ∧ t = { s with mem := t.mem } ∧
      (∀ k, k < bs.length → t.mem.byteAt (0x200 + k) = bs.getD k 0) ∧
      ∀ a, a < 0x200 ∨ 0x200 + bs.length ≤ a → t.mem.byteAt a = s.mem.byteAt a)

/-- R40 with R35, R225, R245, R247, R290, R293, R295, D21 and D27 (the spec's own decisions): each of the host's six actions on
an initialised core has its effect and returns what R40's table says, the effects of loadProgram, setKey and requestQuit being
those of `State.loadProgram`, `State.setKey` and `State.requestQuit`; a step answers its three outputs, or has no transition
where the core has none (log entry 8). Before the first initialize every other action is refused, and so is a key code above
15 (log entry 10). The count of random bytes goes on over initialize (log entry 4). -/
def Obligations.HostActionsAnswerAsTheirRulesSay : Prop :=
  (∀ a, a ≠ .reinit → hostAct a none = .refused .notInitialised) ∧
  hostAct .reinit none = .next (State.reset, .nothing) ∧
  (∀ s, hostAct .reinit (some s) = .next ({ State.reset with rndCount := s.rndCount }, .nothing)) ∧
  (∀ s t bs r, s.loadProgram bs = (r, t) → hostAct (.loadProgram bs) (some s) = .next (t, .loaded r)) ∧
  (∀ s t b, coreStep b s = .next t → hostAct (.step b) (some s) = .next (t, .stepped t.outcome t.redraw t.beep)) ∧
  (∀ s b, s.quit = true → hostAct (.step b) (some s) = .fault .quitHalt) ∧
  (∀ s b x, s.quit = false → s.waiting = some x → s.edge = none →
    hostAct (.step b) (some s) = .fault .keyWaitHold) ∧
  (∀ s p, ∀ k : Key, hostAct (.setKey k.val p) (some s) = .next (s.setKey k p, .nothing)) ∧
  (∀ s k p, 15 < k → hostAct (.setKey k p) (some s) = .refused (.keyCodeOutOfRange k)) ∧
  (∀ s, hostAct .requestQuit (some s) = .next (s.requestQuit, .nothing)) ∧
  ∀ s, hostAct .getFramebuffer (some s) = .next (s, .framebuffer s.fb)
end

