-- ==== Sys2Proof/Laws/Decode.lean ====
section
/-! SUPPORT. The laws of the encoding helpers: the value of a word built from fields, and what the masks of R103 keep of it. -/

namespace Sys2Proof

theorem encNNN_toNat (c : BitVec 4) (nnn : BitVec 12) : (encNNN c nnn).toNat = 4096 * c.toNat + nnn.toNat := by
  have := nnn.isLt
  simp only [encNNN, BitVec.toNat_append]
  rw [← Nat.shiftLeft_add_eq_or_of_lt this, Nat.shiftLeft_eq]
  omega

theorem encXNN_toNat (c : BitVec 4) (x : Reg) (nn : Byte) :
    (encXNN c x nn).toNat = 4096 * c.toNat + 256 * x.val + nn.toNat := by
  have h1 := nn.isLt
  have h2 := (nibble x ++ nn).isLt
  have h3 : (nibble x).toNat = x.val := rfl
  simp only [encXNN, BitVec.toNat_append] at h2 ⊢
  rw [← Nat.shiftLeft_add_eq_or_of_lt h2, ← Nat.shiftLeft_add_eq_or_of_lt h1, Nat.shiftLeft_eq, Nat.shiftLeft_eq, h3]
  omega

theorem encXYN_toNat (c : BitVec 4) (x y : Reg) (n : BitVec 4) :
    (encXYN c x y n).toNat = 4096 * c.toNat + 256 * x.val + 16 * y.val + n.toNat := by
  have h1 := n.isLt
  have h2 := (nibble y ++ n).isLt
  have h3 := (nibble x ++ (nibble y ++ n)).isLt
  have h4 : (nibble x).toNat = x.val := rfl
  have h5 : (nibble y).toNat = y.val := rfl
  simp only [encXYN, BitVec.toNat_append] at h2 h3 ⊢
  rw [← Nat.shiftLeft_add_eq_or_of_lt h3, ← Nat.shiftLeft_add_eq_or_of_lt h2, ← Nat.shiftLeft_add_eq_or_of_lt h1,
    Nat.shiftLeft_eq, Nat.shiftLeft_eq, Nat.shiftLeft_eq, h4, h5]
  omega

/-! ### The decoder's fields of a word built from fields -/

theorem decodeFields_encNNN (c : BitVec 4) (nnn : BitVec 12) :
    (decodeFields (encNNN c nnn)).cls = c ∧ (decodeFields (encNNN c nnn)).address = nnn := by
  have := nnn.isLt
  have := c.isLt
  constructor <;> apply BitVec.eq_of_toNat_eq <;>
    simp only [decodeFields, BitVec.extractLsb'_toNat, encNNN_toNat, Nat.shiftRight_eq_div_pow] <;> omega

theorem decodeFields_encXNN (c : BitVec 4) (x : Reg) (nn : Byte) :
    (decodeFields (encXNN c x nn)).cls = c ∧ (decodeFields (encXNN c x nn)).regX = x ∧
    (decodeFields (encXNN c x nn)).imm8 = nn := by
  have := nn.isLt
  have := c.isLt
  have := x.isLt
  refine ⟨BitVec.eq_of_toNat_eq ?_, Fin.ext (show (BitVec.extractLsb' 8 4 _).toNat = _ from ?_),
    BitVec.eq_of_toNat_eq ?_⟩ <;>
    simp only [decodeFields, BitVec.extractLsb'_toNat, encXNN_toNat, Nat.shiftRight_eq_div_pow] <;>
    omega

theorem decodeFields_encXYN (c : BitVec 4) (x y : Reg) (n : BitVec 4) :
    (decodeFields (encXYN c x y n)).cls = c ∧ (decodeFields (encXYN c x y n)).regX = x ∧
    (decodeFields (encXYN c x y n)).regY = y ∧ (decodeFields (encXYN c x y n)).imm4 = n := by
  have := n.isLt
  have := c.isLt
  have := x.isLt
  have := y.isLt
  refine ⟨BitVec.eq_of_toNat_eq ?_, Fin.ext (show (BitVec.extractLsb' 8 4 _).toNat = _ from ?_),
    Fin.ext (show (BitVec.extractLsb' 4 4 _).toNat = _ from ?_), BitVec.eq_of_toNat_eq ?_⟩ <;>
    simp only [decodeFields, BitVec.extractLsb'_toNat, encXYN_toNat, Nat.shiftRight_eq_div_pow] <;>
    omega

/-! ### What the masks of R103 keep -/

/-- The class mask keeps the class of a word of three-nibble operand. -/
theorem encNNN_and_class (c : BitVec 4) (nnn : BitVec 12) : encNNN c nnn &&& 0xF000#16 = encNNN c 0 := by
  change (c ++ nnn) &&& (0xF#4 ++ 0x000#12) = c ++ 0#12
  rw [BitVec.and_append, BitVec.and_zero, show (0xF#4) = BitVec.allOnes 4 from rfl, BitVec.and_allOnes]

theorem encXNN_and_class (c : BitVec 4) (x : Reg) (nn : Byte) : encXNN c x nn &&& 0xF000#16 = encNNN c 0 :=
  encNNN_and_class c (nibble x ++ nn)

theorem encXYN_and_class (c : BitVec 4) (x y : Reg) (n : BitVec 4) : encXYN c x y n &&& 0xF000#16 = encNNN c 0 :=
  encNNN_and_class c (nibble x ++ (nibble y ++ n))

/-- The class and low-byte mask keeps the class and the low byte. -/
theorem encXNN_and_low (c : BitVec 4) (x : Reg) (nn : Byte) : encXNN c x nn &&& 0xF0FF#16 = encXNN c 0 nn := by
  change (c ++ (nibble x ++ nn)) &&& (0xF#4 ++ (0x0#4 ++ 0xFF#8)) = c ++ (0x0#4 ++ nn)
  rw [BitVec.and_append, BitVec.and_append, BitVec.and_zero, show (0xF#4) = BitVec.allOnes 4 from rfl,
    show (0xFF#8) = BitVec.allOnes 8 from rfl, BitVec.and_allOnes, BitVec.and_allOnes]

/-- The class and low-nibble mask keeps the class and the low nibble. -/
theorem encXYN_and_low (c : BitVec 4) (x y : Reg) (n : BitVec 4) : encXYN c x y n &&& 0xF00F#16 = encXYN c 0 0 n := by
  change (c ++ (nibble x ++ (nibble y ++ n))) &&& (0xF#4 ++ (0x0#4 ++ (0x0#4 ++ 0xF#4))) = c ++ (0x0#4 ++ (0x0#4 ++ n))
  rw [BitVec.and_append, BitVec.and_append, BitVec.and_append, BitVec.and_zero, BitVec.and_zero,
    show (0xF#4) = BitVec.allOnes 4 from rfl, BitVec.and_allOnes, BitVec.and_allOnes]


theorem wordOfBytes_toNat (hi lo : Byte) : (wordOfBytes hi lo).toNat = 256 * hi.toNat + lo.toNat := by
  have := lo.isLt
  simp only [wordOfBytes, BitVec.toNat_append]
  rw [← Nat.shiftLeft_add_eq_or_of_lt this, Nat.shiftLeft_eq]
  omega

/-- The two bytes of a word, put together big-endian, are the word. -/
theorem wordOfBytes_extract (w : Word) : wordOfBytes (w.extractLsb' 8 8) (w.extractLsb' 0 8) = w := by
  apply BitVec.eq_of_toNat_eq
  have := w.isLt
  rw [wordOfBytes_toNat]
  simp only [BitVec.extractLsb'_toNat, Nat.shiftRight_eq_div_pow]
  omega

/-- Decoding a word's two bytes is dispatching the word. -/
theorem decodeBytes_bytesOfWord (w : Word) (rest : List Byte) :
    decodeBytes (bytesOfWord w ++ rest) =
      match dispatch w with
      | some i => .ok (i, rest)
      | none => .error (.invalidOpcode w) := by
  cases h : dispatch w <;>
    simp only [bytesOfWord, List.cons_append, List.nil_append, decodeBytes, wordOfBytes_extract, h]

theorem decodeTableWord_eq (w : Nat) : decodeTableWord 16 w = dispatch (BitVec.ofNat 16 w) := by
  have h : tableWord 16 w = BitVec.ofNat 16 w := by
    apply BitVec.eq_of_toNat_eq
    simp [tableWord]
  have := decodeBytes_bytesOfWord (BitVec.ofNat 16 w) []
  rw [List.append_nil] at this
  rw [decodeTableWord, h, this]
  cases dispatch (BitVec.ofNat 16 w) <;> rfl

end Sys2Proof
end

