-- ==== Sys2Proof/Laws/Display.lean ====
section
/-! SUPPORT. The laws of the framebuffer: a pixel after a write, extensionality, and what one bit of a sprite does. -/

namespace Sys2Proof.Machine

theorem pixel_of_lt {fb : Framebuffer} {x y : Nat} (hx : x < 64) (hy : y < 32) : pixel fb x y = fb[y][x] := by
  simp [pixel, hx, hy, Vector.get_eq_getElem]

theorem pixel_outside {fb : Framebuffer} {x y : Nat} (h : ¬(x < 64 ∧ y < 32)) : pixel fb x y = false := by
  simp only [pixel, h, dif_neg, not_false_eq_true]

/-- Two framebuffers with the same pixels are equal. -/
theorem framebuffer_ext {fb fb' : Framebuffer} (h : ∀ x y, x < 64 → y < 32 → pixel fb x y = pixel fb' x y) :
    fb = fb' := by
  refine Vector.ext fun y hy => Vector.ext fun x hx => ?_
  have := h x y hx hy
  rwa [pixel_of_lt hx hy, pixel_of_lt hx hy] at this

/-- A pixel after one pixel is written: that one new where it lies in the grid, every other as before. -/
theorem pixel_setPixel (fb : Framebuffer) (x y px py : Nat) (b : Bool) (hx : x < 64) (hy : y < 32) :
    pixel (setPixel fb x y b) px py = if px = x ∧ py = y then b else pixel fb px py := by
  by_cases hp : px < 64 ∧ py < 32
  · obtain ⟨hpx, hpy⟩ := hp
    rw [pixel_of_lt hpx hpy, pixel_of_lt hpx hpy]
    simp only [setPixel, hx, hy, and_self, dif_pos, Vector.getElem_set, Vector.get_eq_getElem]
    by_cases h1 : y = py
    · subst h1
      by_cases h2 : x = px
      · subst h2; simp
      · simp [h2, Ne.symm h2]
    · simp [h1, Ne.symm h1]
  · rw [pixel_outside hp, pixel_outside hp, if_neg]
    rintro ⟨rfl, rfl⟩
    exact hp ⟨hx, hy⟩

theorem pixel_togglePixel (fb : Framebuffer) (x y px py : Nat) (hx : x < 64) (hy : y < 32) :
    pixel (togglePixel fb x y) px py = (pixel fb px py ^^ decide (px = x ∧ py = y)) := by
  rw [togglePixel, pixel_setPixel _ _ _ _ _ _ hx hy]
  by_cases h : px = x ∧ py = y
  · obtain ⟨rfl, rfl⟩ := h; simp
  · simp [h]

theorem pixel_cleared (x y : Nat) : pixel clearedFramebuffer x y = false := by
  by_cases h : x < 64 ∧ y < 32
  · rw [pixel_of_lt h.1 h.2]
    simp [clearedFramebuffer]
  · exact pixel_outside h

/-- One bit of a sprite: it flips its pixel where it is 1 and not clipped, and no other. -/
theorem pixel_plotBit (x y : Nat) (bit : Bool) (acc : Framebuffer × Bool) (px py : Nat) :
    pixel (plotBit x y bit acc).1 px py =
      (pixel acc.1 px py ^^ decide (px = x ∧ py = y ∧ x < 64 ∧ y < 32 ∧ bit = true)) := by
  unfold plotBit
  split
  · rename_i h
    rw [pixel_togglePixel _ _ _ _ _ h.2.1 h.1]
    simp [h]
  · rename_i h
    have : ¬(px = x ∧ py = y ∧ x < 64 ∧ y < 32 ∧ bit = true) := fun ⟨_, _, h1, h2, h3⟩ => h ⟨h2, h1, h3⟩
    simp [this]

/-- One bit of a sprite collides exactly where it is 1, not clipped, and its pixel was lit; a collision is never reset. -/
theorem collision_plotBit (x y : Nat) (bit : Bool) (acc : Framebuffer × Bool) :
    (plotBit x y bit acc).2 = (acc.2 || (decide (y < 32 ∧ x < 64 ∧ bit = true) && pixel acc.1 x y)) := by
  unfold plotBit
  split <;> simp_all

/-- One row of a sprite: it flips the pixels under its 1 bits, bit 7 leftmost, and no other. -/
theorem pixel_plotRow (x y : Nat) (row : Byte) (acc : Framebuffer × Bool) (px py : Nat) (hx : px < 64) (hy : py < 32) :
    pixel (plotRow x y row acc).1 px py =
      (pixel acc.1 px py ^^ (decide (py = y ∧ x ≤ px ∧ px < x + 8) && row.getLsbD (7 - (px - x)))) := by
  have key : ∀ e, ∀ acc' : Framebuffer × Bool,
      pixel acc'.1 px py =
        (pixel acc.1 px py ^^ (decide (py = y ∧ x ≤ px ∧ px < x + e) && row.getLsbD (7 - (px - x)))) →
      pixel (plotBit (x + e) y (row.getLsbD (7 - e)) acc').1 px py =
        (pixel acc.1 px py ^^ (decide (py = y ∧ x ≤ px ∧ px < x + (e + 1)) && row.getLsbD (7 - (px - x)))) := by
    intro e acc' h
    rw [pixel_plotBit, h]
    by_cases hp : px = x + e
    · subst hp
      rw [show x + e - x = e by omega]
      generalize row.getLsbD (7 - e) = b
      by_cases hh : py = y
      · subst hh
        simp [hx, hy]
      · simp [hh]
    · have e1 : (py = y ∧ x ≤ px ∧ px < x + e) ↔ (py = y ∧ x ≤ px ∧ px < x + (e + 1)) := by omega
      simp only [e1, hp]
      simp
  exact key 7 _ (key 6 _ (key 5 _ (key 4 _ (key 3 _ (key 2 _ (key 1 _ (key 0 acc
    (by rw [decide_eq_false (by omega)]; simp))))))))

end Sys2Proof.Machine
end

