-- ==== Sys2Proof/Laws/Memory.lean ====
section
/-! SUPPORT. The laws of the memory controller: a read after a write, the canonical form kept by every operation, and the block
checks and transfers, each said once. -/

namespace Sys2Proof.Machine

/-! ### One byte -/

/-- The reset contents in the font's place (R292). -/
theorem resetContents_font (f : Vector Byte Config.fontSize) {a : Nat} (h : a < Config.fontSize) :
    resetContents f a = f[a] := by
  rw [resetContents, dif_pos h]

/-- The reset contents beyond the font are 0, whatever FONT is (R41). -/
theorem resetContents_above (f : Vector Byte Config.fontSize) {a : Nat} (h : Config.fontSize ≤ a) :
    resetContents f a = 0 := by
  rw [resetContents, dif_neg (Nat.not_lt.mpr h)]

/-- Under the premise that FONT is its default, an unlisted byte is the default's. -/
theorem Memory.unlisted_of_default (h : font = defaultFont) (a : Nat) :
    Memory.unlisted a = resetContents defaultFont a := by
  rw [Memory.unlisted, h]

theorem Memory.byteAt_erase (m : Memory) (a b : Nat) :
    (m.erase a).byteAt b = if b = a then Memory.unlisted b else m.byteAt b := by
  induction m with
  | nil => simp [Memory.erase, Memory.byteAt]
  | cons c m ih =>
    by_cases hc : c.1 = a
    · have he : Memory.erase (c :: m) a = Memory.erase m a := by simp [Memory.erase, hc]
      rw [he, ih]
      by_cases hb : b = a
      · simp [hb]
      · simp [hb, Memory.byteAt, hc, Ne.symm hb]
    · have he : Memory.erase (c :: m) a = c :: Memory.erase m a := by simp [Memory.erase, hc]
      rw [he]
      simp only [Memory.byteAt, ih]
      split_ifs <;> simp_all

theorem Memory.byteAt_insert (m : Memory) (a b : Nat) (v : Byte) (h : ∀ c ∈ m, c.1 ≠ a) :
    (Memory.insert m a v).byteAt b = if b = a then v else m.byteAt b := by
  induction m with
  | nil => simp [Memory.insert, Memory.byteAt, eq_comm]
  | cons c m ih =>
    have hc := h c (by simp)
    have ih := ih fun d hd => h d (by simp [hd])
    simp only [Memory.insert]
    split
    · simp only [Memory.byteAt, eq_comm]
    · simp only [Memory.byteAt, ih]
      split_ifs <;> simp_all

theorem Memory.mem_erase {m : Memory} {a : Nat} {c : Host.Cell} (h : c ∈ m.erase a) : c ∈ m ∧ c.1 ≠ a := by
  simpa [Memory.erase] using h

/-- A read after a write: the byte written there, and every other address as before (R63). No premise on the list. -/
@[simp] theorem Memory.byteAt_put (m : Memory) (a b : Nat) (v : Byte) :
    (m.put a v).byteAt b = if b = a then v else m.byteAt b := by
  unfold Memory.put
  split
  · rw [Memory.byteAt_erase]
    split_ifs with h1
    · simp_all
    · rfl
  · rw [Memory.byteAt_insert _ _ _ _ fun c hc => (Memory.mem_erase hc).2, Memory.byteAt_erase]
    split_ifs <;> rfl

/-! ### The canonical form -/

theorem Memory.wf_nil : Memory.wf [] :=
  ⟨List.Pairwise.nil, by simp⟩

theorem Memory.wf_erase {m : Memory} (h : m.wf) (a : Nat) : (m.erase a).wf :=
  ⟨h.1.filter _, fun c hc => h.2 c (Memory.mem_erase hc).1⟩

theorem Memory.mem_insert {m : Memory} {a : Nat} {v : Byte} {c : Host.Cell} (h : c ∈ Memory.insert m a v) :
    c = (a, v) ∨ c ∈ m := by
  induction m with
  | nil => simpa [Memory.insert] using h
  | cons d m ih =>
    simp only [Memory.insert] at h
    split at h
    · simpa using h
    · rcases List.mem_cons.mp h with rfl | h
      · simp
      · rcases ih h with rfl | h <;> simp [*]

theorem Memory.wf_insert {m : Memory} (h : m.wf) {a : Nat} {v : Byte} (ha : a < Config.memSize)
    (hv : v ≠ Memory.unlisted a) (hn : ∀ c ∈ m, c.1 ≠ a) : (Memory.insert m a v).wf := by
  constructor
  · have hp := h.1
    clear h
    induction m with
    | nil => simp [Memory.insert]
    | cons d m ih =>
      rw [List.pairwise_cons] at hp
      have hd := hn d (by simp)
      have ih := ih (fun c hc => hn c (by simp [hc])) hp.2
      simp only [Memory.insert]
      split
      · rename_i had
        refine List.pairwise_cons.mpr ⟨fun c hc => ?_, List.pairwise_cons.mpr hp⟩
        rcases List.mem_cons.mp hc with rfl | hc
        · exact had
        · exact Nat.lt_trans had (hp.1 c hc)
      · refine List.pairwise_cons.mpr ⟨fun c hc => ?_, ih⟩
        rcases Memory.mem_insert hc with rfl | hc
        · simp only; omega
        · exact hp.1 c hc
  · intro c hc
    rcases Memory.mem_insert hc with rfl | hc
    · exact ⟨ha, hv⟩
    · exact h.2 c hc

/-- A write inside memory keeps the canonical form. -/
theorem Memory.wf_put {m : Memory} (h : m.wf) {a : Nat} (ha : a < Config.memSize) (v : Byte) : (m.put a v).wf := by
  unfold Memory.put
  split
  · exact Memory.wf_erase h a
  · exact Memory.wf_insert (Memory.wf_erase h a) ha ‹_› fun c hc => (Memory.mem_erase hc).2

/-- A block put inside memory keeps the canonical form. -/
theorem Memory.wf_putBytes {m : Memory} (h : m.wf) (a : Nat) (bs : List Byte) (ha : a + bs.length ≤ Config.memSize) :
    (m.putBytes a bs).wf := by
  induction bs generalizing m a with
  | nil => exact h
  | cons b bs ih =>
    simp only [List.length_cons] at ha
    exact ih (Memory.wf_put h (by omega) b) (a + 1) (by omega)

/-- The write port keeps the canonical form. -/
theorem Memory.wf_write {m m' : Memory} (h : m.wf) {a : Nat} {v : Byte} (e : m.write a v = .ok m') : m'.wf := by
  unfold Memory.write at e
  split at e
  · cases e
    exact Memory.wf_put h ‹_› v
  · cases e

theorem Memory.byteAt_of_lt {m : Memory} {a : Nat} (h : ∀ c ∈ m, a < c.1) : m.byteAt a = Memory.unlisted a := by
  induction m with
  | nil => rfl
  | cons c m ih =>
    have hc := h c (by simp)
    have ih := ih fun d hd => h d (by simp [hd])
    simp only [Memory.byteAt, ih]
    split_ifs
    · omega
    · rfl

/-- The canonical form is one per contents: two memories in it that read alike everywhere are the same list. -/
theorem Memory.ext_of_wf {m m' : Memory} (h : m.wf) (h' : m'.wf) (e : ∀ a, m.byteAt a = m'.byteAt a) : m = m' := by
  induction m generalizing m' with
  | nil =>
    cases m' with
    | nil => rfl
    | cons d m' =>
      have := e d.1
      simp only [Memory.byteAt, if_true] at this
      exact absurd this.symm (h'.2 d (by simp)).2
  | cons c m ih =>
    have hp := List.pairwise_cons.mp h.1
    cases m' with
    | nil =>
      have := e c.1
      simp only [Memory.byteAt, if_true] at this
      exact absurd this (h.2 c (by simp)).2
    | cons d m' =>
      have hp' := List.pairwise_cons.mp h'.1
      have hcd : c.1 = d.1 := by
        rcases Nat.lt_trichotomy c.1 d.1 with hlt | heq | hgt
        · have := e c.1
          rw [Memory.byteAt_of_lt (m := d :: m')] at this
          · simp only [Memory.byteAt, if_true] at this
            exact absurd this (h.2 c (by simp)).2
          · intro x hx
            rcases List.mem_cons.mp hx with rfl | hx
            · exact hlt
            · exact Nat.lt_trans hlt (hp'.1 x hx)
        · exact heq
        · have := e d.1
          rw [Memory.byteAt_of_lt (m := c :: m)] at this
          · simp only [Memory.byteAt, if_true] at this
            exact absurd this.symm (h'.2 d (by simp)).2
          · intro x hx
            rcases List.mem_cons.mp hx with rfl | hx
            · exact hgt
            · exact Nat.lt_trans hgt (hp.1 x hx)
      have hv : c.2 = d.2 := by
        have := e c.1
        simpa [Memory.byteAt, hcd] using this
      have hm : m = m' := by
        refine ih ⟨hp.2, fun x hx => h.2 x (by simp [hx])⟩ ⟨hp'.2, fun x hx => h'.2 x (by simp [hx])⟩ fun a => ?_
        by_cases ha : a = c.1
        · subst ha
          rw [Memory.byteAt_of_lt hp.1, Memory.byteAt_of_lt (hcd ▸ hp'.1)]
        · have := e a
          simpa [Memory.byteAt, Ne.symm ha, hcd ▸ Ne.symm ha] using this
      rw [hm, Prod.ext hcd hv]

/-! ### Blocks -/

theorem Memory.bytesAt_length (m : Memory) (a n : Nat) : (m.bytesAt a n).length = n := by
  induction n generalizing a with
  | zero => rfl
  | succ n ih => simp [Memory.bytesAt, ih]

theorem Memory.bytesAt_getD (m : Memory) (a n k : Nat) (h : k < n) : (m.bytesAt a n).getD k 0 = m.byteAt (a + k) := by
  induction n generalizing a k with
  | zero => omega
  | succ n ih =>
    cases k with
    | zero => simp [Memory.bytesAt]
    | succ k =>
      have := ih (a + 1) k (by omega)
      simpa [Memory.bytesAt, Nat.add_assoc, Nat.add_comm 1 k] using this

/-- What a block write leaves: its bytes, and every other address as before. -/
theorem Memory.byteAt_putBytes (m : Memory) (a : Nat) (bs : List Byte) (c : Nat) :
    (m.putBytes a bs).byteAt c = if a ≤ c ∧ c < a + bs.length then bs.getD (c - a) 0 else m.byteAt c := by
  induction bs generalizing m a with
  | nil => simp [Memory.putBytes]
  | cons b bs ih =>
    simp only [Memory.putBytes, ih, Memory.byteAt_put, List.length_cons]
    by_cases h : c = a
    · subst h; simp
    · by_cases h2 : a + 1 ≤ c ∧ c < a + 1 + bs.length
      · rw [if_pos h2, if_pos (by omega)]
        obtain ⟨k, rfl⟩ := Nat.exists_eq_add_of_le h2.1
        rw [show a + 1 + k - (a + 1) = k by omega, show a + 1 + k - a = k + 1 by omega]
        simp
      · rw [if_neg h2, if_neg h, if_neg (by omega)]

/-- CheckRange on a block that lies in memory, or on no block at all. -/
theorem checkRange_ok {a n : Nat} (h : n = 0 ∨ a + n ≤ 4096) : checkRange a n = .ok () := by
  unfold checkRange
  rw [if_neg]
  simp only [Config.memSize]
  omega

/-- CheckRange on a block that reaches beyond memory: its lowest invalid address. -/
theorem checkRange_error {a n : Nat} (h0 : 0 < n) (h : 4096 < a + n) : checkRange a n = .error (max a 4096) := by
  unfold checkRange
  rw [if_pos ⟨h0, h⟩]

theorem Memory.readBlock_ok {m : Memory} {a n : Nat} (h : n = 0 ∨ a + n ≤ 4096) :
    m.readBlock a n = .ok (m.bytesAt a n) := by
  simp only [Memory.readBlock, checkRange_ok h]

theorem Memory.readBlock_error {m : Memory} {a n : Nat} (h0 : 0 < n) (h : 4096 < a + n) :
    m.readBlock a n = .error (max a 4096) := by
  simp only [Memory.readBlock, checkRange_error h0 h]

theorem Memory.writeBlock_ok {m : Memory} {a : Nat} {bs : List Byte} (h : a + bs.length ≤ 4096) :
    m.writeBlock a bs = .ok (m.putBytes a bs) := by
  simp only [Memory.writeBlock, checkRange_ok (Or.inr h)]

theorem Memory.writeBlock_error {m : Memory} {a : Nat} {bs : List Byte} (h0 : 0 < bs.length)
    (h : 4096 < a + bs.length) : m.writeBlock a bs = .error (max a 4096) := by
  simp only [Memory.writeBlock, checkRange_error h0 h]

/-- A block write that is allowed keeps the canonical form. -/
theorem Memory.wf_writeBlock {m m' : Memory} (h : m.wf) {a : Nat} {bs : List Byte} (e : m.writeBlock a bs = .ok m') :
    m'.wf := by
  by_cases hb : a + bs.length ≤ 4096
  · rw [Memory.writeBlock_ok hb] at e
    cases e
    exact Memory.wf_putBytes h a bs hb
  · rcases Nat.eq_zero_or_pos bs.length with h0 | h0
    · have : bs = [] := List.length_eq_zero_iff.mp h0
      subst this
      simp only [Memory.writeBlock, Memory.putBytes] at e
      cases e
      exact h
    · rw [Memory.writeBlock_error h0 (by omega)] at e
      cases e

/-- The fetch of two bytes that lie in memory (R64). -/
theorem Memory.fetch_ok {m : Memory} {a : Nat} (h : a + 1 ≤ 4095) :
    m.fetch a = .ok (wordOfBytes (m.byteAt a) (m.byteAt (a + 1))) := by
  simp only [Memory.fetch, checkRange_ok (Or.inr (show a + 2 ≤ 4096 by omega))]

/-- The fetch that reaches beyond memory (R65). -/
theorem Memory.fetch_error {m : Memory} {a : Nat} (h : 4095 < a + 1) : m.fetch a = .error (max a 4096) := by
  simp only [Memory.fetch, checkRange_error (show 0 < 2 by omega) (show 4096 < a + 2 by omega)]

/-- The fetch answers the big-endian word, or the lowest invalid address; there is no third case. -/
theorem Memory.fetch_cases (m : Memory) (a : Nat) :
    (a + 1 ≤ 4095 ∧ m.fetch a = .ok (wordOfBytes (m.byteAt a) (m.byteAt (a + 1)))) ∨
    (4095 < a + 1 ∧ m.fetch a = .error (max a 4096)) := by
  by_cases h : a + 1 ≤ 4095
  · exact .inl ⟨h, Memory.fetch_ok h⟩
  · exact .inr ⟨by omega, Memory.fetch_error (by omega)⟩

end Sys2Proof.Machine
end

