-- ==== Sys2Proof/Laws/State.lean ====
section
/-! SUPPORT. What each update of the state leaves in each field: one lemma per field per update, so that no proof unfolds a
record update. -/

namespace Sys2Proof.Machine

/-! ### State.setReg -/

@[simp] theorem State.setReg_v (s : State) (x : Reg) (b : Byte) : (s.setReg x b).v = s.v.set x.val b x.isLt := rfl
@[simp] theorem State.setReg_i (s : State) (x : Reg) (b : Byte) : (s.setReg x b).i = s.i := rfl
@[simp] theorem State.setReg_pc (s : State) (x : Reg) (b : Byte) : (s.setReg x b).pc = s.pc := rfl
@[simp] theorem State.setReg_sp (s : State) (x : Reg) (b : Byte) : (s.setReg x b).sp = s.sp := rfl
@[simp] theorem State.setReg_stack (s : State) (x : Reg) (b : Byte) : (s.setReg x b).stack = s.stack := rfl
@[simp] theorem State.setReg_dt (s : State) (x : Reg) (b : Byte) : (s.setReg x b).dt = s.dt := rfl
@[simp] theorem State.setReg_st (s : State) (x : Reg) (b : Byte) : (s.setReg x b).st = s.st := rfl
@[simp] theorem State.setReg_keys (s : State) (x : Reg) (b : Byte) : (s.setReg x b).keys = s.keys := rfl
@[simp] theorem State.setReg_fb (s : State) (x : Reg) (b : Byte) : (s.setReg x b).fb = s.fb := rfl
@[simp] theorem State.setReg_mem (s : State) (x : Reg) (b : Byte) : (s.setReg x b).mem = s.mem := rfl
@[simp] theorem State.setReg_waiting (s : State) (x : Reg) (b : Byte) : (s.setReg x b).waiting = s.waiting := rfl
@[simp] theorem State.setReg_edge (s : State) (x : Reg) (b : Byte) : (s.setReg x b).edge = s.edge := rfl
@[simp] theorem State.setReg_quit (s : State) (x : Reg) (b : Byte) : (s.setReg x b).quit = s.quit := rfl
@[simp] theorem State.setReg_outcome (s : State) (x : Reg) (b : Byte) : (s.setReg x b).outcome = s.outcome := rfl
@[simp] theorem State.setReg_redraw (s : State) (x : Reg) (b : Byte) : (s.setReg x b).redraw = s.redraw := rfl
@[simp] theorem State.setReg_beep (s : State) (x : Reg) (b : Byte) : (s.setReg x b).beep = s.beep := rfl
@[simp] theorem State.setReg_rndIn (s : State) (x : Reg) (b : Byte) : (s.setReg x b).rndIn = s.rndIn := rfl
@[simp] theorem State.setReg_rndCount (s : State) (x : Reg) (b : Byte) : (s.setReg x b).rndCount = s.rndCount := rfl

/-! ### State.advance -/

@[simp] theorem State.advance_v (s : State) (n : Word) : (s.advance n).v = s.v := rfl
@[simp] theorem State.advance_i (s : State) (n : Word) : (s.advance n).i = s.i := rfl
@[simp] theorem State.advance_pc (s : State) (n : Word) : (s.advance n).pc = s.pc + n := rfl
@[simp] theorem State.advance_sp (s : State) (n : Word) : (s.advance n).sp = s.sp := rfl
@[simp] theorem State.advance_stack (s : State) (n : Word) : (s.advance n).stack = s.stack := rfl
@[simp] theorem State.advance_dt (s : State) (n : Word) : (s.advance n).dt = s.dt := rfl
@[simp] theorem State.advance_st (s : State) (n : Word) : (s.advance n).st = s.st := rfl
@[simp] theorem State.advance_keys (s : State) (n : Word) : (s.advance n).keys = s.keys := rfl
@[simp] theorem State.advance_fb (s : State) (n : Word) : (s.advance n).fb = s.fb := rfl
@[simp] theorem State.advance_mem (s : State) (n : Word) : (s.advance n).mem = s.mem := rfl
@[simp] theorem State.advance_waiting (s : State) (n : Word) : (s.advance n).waiting = s.waiting := rfl
@[simp] theorem State.advance_edge (s : State) (n : Word) : (s.advance n).edge = s.edge := rfl
@[simp] theorem State.advance_quit (s : State) (n : Word) : (s.advance n).quit = s.quit := rfl
@[simp] theorem State.advance_outcome (s : State) (n : Word) : (s.advance n).outcome = s.outcome := rfl
@[simp] theorem State.advance_redraw (s : State) (n : Word) : (s.advance n).redraw = s.redraw := rfl
@[simp] theorem State.advance_beep (s : State) (n : Word) : (s.advance n).beep = s.beep := rfl
@[simp] theorem State.advance_rndIn (s : State) (n : Word) : (s.advance n).rndIn = s.rndIn := rfl
@[simp] theorem State.advance_rndCount (s : State) (n : Word) : (s.advance n).rndCount = s.rndCount := rfl

/-! ### State.jump -/

@[simp] theorem State.jump_v (s : State) (w : Word) : (s.jump w).v = s.v := rfl
@[simp] theorem State.jump_i (s : State) (w : Word) : (s.jump w).i = s.i := rfl
@[simp] theorem State.jump_pc (s : State) (w : Word) : (s.jump w).pc = w := rfl
@[simp] theorem State.jump_sp (s : State) (w : Word) : (s.jump w).sp = s.sp := rfl
@[simp] theorem State.jump_stack (s : State) (w : Word) : (s.jump w).stack = s.stack := rfl
@[simp] theorem State.jump_dt (s : State) (w : Word) : (s.jump w).dt = s.dt := rfl
@[simp] theorem State.jump_st (s : State) (w : Word) : (s.jump w).st = s.st := rfl
@[simp] theorem State.jump_keys (s : State) (w : Word) : (s.jump w).keys = s.keys := rfl
@[simp] theorem State.jump_fb (s : State) (w : Word) : (s.jump w).fb = s.fb := rfl
@[simp] theorem State.jump_mem (s : State) (w : Word) : (s.jump w).mem = s.mem := rfl
@[simp] theorem State.jump_waiting (s : State) (w : Word) : (s.jump w).waiting = s.waiting := rfl
@[simp] theorem State.jump_edge (s : State) (w : Word) : (s.jump w).edge = s.edge := rfl
@[simp] theorem State.jump_quit (s : State) (w : Word) : (s.jump w).quit = s.quit := rfl
@[simp] theorem State.jump_outcome (s : State) (w : Word) : (s.jump w).outcome = s.outcome := rfl
@[simp] theorem State.jump_redraw (s : State) (w : Word) : (s.jump w).redraw = s.redraw := rfl
@[simp] theorem State.jump_beep (s : State) (w : Word) : (s.jump w).beep = s.beep := rfl
@[simp] theorem State.jump_rndIn (s : State) (w : Word) : (s.jump w).rndIn = s.rndIn := rfl
@[simp] theorem State.jump_rndCount (s : State) (w : Word) : (s.jump w).rndCount = s.rndCount := rfl

/-! ### State.push -/

@[simp] theorem State.push_v (s : State) (w : Word) (h : s.sp.val < 16) : (s.push w h).v = s.v := rfl
@[simp] theorem State.push_i (s : State) (w : Word) (h : s.sp.val < 16) : (s.push w h).i = s.i := rfl
@[simp] theorem State.push_pc (s : State) (w : Word) (h : s.sp.val < 16) : (s.push w h).pc = s.pc := rfl
@[simp] theorem State.push_sp (s : State) (w : Word) (h : s.sp.val < 16) : (s.push w h).sp = ⟨s.sp.val + 1, by omega⟩ := rfl
@[simp] theorem State.push_stack (s : State) (w : Word) (h : s.sp.val < 16) : (s.push w h).stack = s.stack.set s.sp.val w h := rfl
@[simp] theorem State.push_dt (s : State) (w : Word) (h : s.sp.val < 16) : (s.push w h).dt = s.dt := rfl
@[simp] theorem State.push_st (s : State) (w : Word) (h : s.sp.val < 16) : (s.push w h).st = s.st := rfl
@[simp] theorem State.push_keys (s : State) (w : Word) (h : s.sp.val < 16) : (s.push w h).keys = s.keys := rfl
@[simp] theorem State.push_fb (s : State) (w : Word) (h : s.sp.val < 16) : (s.push w h).fb = s.fb := rfl
@[simp] theorem State.push_mem (s : State) (w : Word) (h : s.sp.val < 16) : (s.push w h).mem = s.mem := rfl
@[simp] theorem State.push_waiting (s : State) (w : Word) (h : s.sp.val < 16) : (s.push w h).waiting = s.waiting := rfl
@[simp] theorem State.push_edge (s : State) (w : Word) (h : s.sp.val < 16) : (s.push w h).edge = s.edge := rfl
@[simp] theorem State.push_quit (s : State) (w : Word) (h : s.sp.val < 16) : (s.push w h).quit = s.quit := rfl
@[simp] theorem State.push_outcome (s : State) (w : Word) (h : s.sp.val < 16) : (s.push w h).outcome = s.outcome := rfl
@[simp] theorem State.push_redraw (s : State) (w : Word) (h : s.sp.val < 16) : (s.push w h).redraw = s.redraw := rfl
@[simp] theorem State.push_beep (s : State) (w : Word) (h : s.sp.val < 16) : (s.push w h).beep = s.beep := rfl
@[simp] theorem State.push_rndIn (s : State) (w : Word) (h : s.sp.val < 16) : (s.push w h).rndIn = s.rndIn := rfl
@[simp] theorem State.push_rndCount (s : State) (w : Word) (h : s.sp.val < 16) : (s.push w h).rndCount = s.rndCount := rfl

/-! ### State.popped -/

@[simp] theorem State.popped_v (s : State) : (s.popped).v = s.v := rfl
@[simp] theorem State.popped_i (s : State) : (s.popped).i = s.i := rfl
@[simp] theorem State.popped_pc (s : State) : (s.popped).pc = s.pc := rfl
@[simp] theorem State.popped_sp (s : State) : (s.popped).sp = ⟨s.sp.val - 1, by omega⟩ := rfl
@[simp] theorem State.popped_stack (s : State) : (s.popped).stack = s.stack := rfl
@[simp] theorem State.popped_dt (s : State) : (s.popped).dt = s.dt := rfl
@[simp] theorem State.popped_st (s : State) : (s.popped).st = s.st := rfl
@[simp] theorem State.popped_keys (s : State) : (s.popped).keys = s.keys := rfl
@[simp] theorem State.popped_fb (s : State) : (s.popped).fb = s.fb := rfl
@[simp] theorem State.popped_mem (s : State) : (s.popped).mem = s.mem := rfl
@[simp] theorem State.popped_waiting (s : State) : (s.popped).waiting = s.waiting := rfl
@[simp] theorem State.popped_edge (s : State) : (s.popped).edge = s.edge := rfl
@[simp] theorem State.popped_quit (s : State) : (s.popped).quit = s.quit := rfl
@[simp] theorem State.popped_outcome (s : State) : (s.popped).outcome = s.outcome := rfl
@[simp] theorem State.popped_redraw (s : State) : (s.popped).redraw = s.redraw := rfl
@[simp] theorem State.popped_beep (s : State) : (s.popped).beep = s.beep := rfl
@[simp] theorem State.popped_rndIn (s : State) : (s.popped).rndIn = s.rndIn := rfl
@[simp] theorem State.popped_rndCount (s : State) : (s.popped).rndCount = s.rndCount := rfl

/-! ### State.raised -/

@[simp] theorem State.raised_v (s : State) (e : StepOutcome) : (s.raised e).v = s.v := rfl
@[simp] theorem State.raised_i (s : State) (e : StepOutcome) : (s.raised e).i = s.i := rfl
@[simp] theorem State.raised_pc (s : State) (e : StepOutcome) : (s.raised e).pc = s.pc := rfl
@[simp] theorem State.raised_sp (s : State) (e : StepOutcome) : (s.raised e).sp = s.sp := rfl
@[simp] theorem State.raised_stack (s : State) (e : StepOutcome) : (s.raised e).stack = s.stack := rfl
@[simp] theorem State.raised_dt (s : State) (e : StepOutcome) : (s.raised e).dt = s.dt := rfl
@[simp] theorem State.raised_st (s : State) (e : StepOutcome) : (s.raised e).st = s.st := rfl
@[simp] theorem State.raised_keys (s : State) (e : StepOutcome) : (s.raised e).keys = s.keys := rfl
@[simp] theorem State.raised_fb (s : State) (e : StepOutcome) : (s.raised e).fb = s.fb := rfl
@[simp] theorem State.raised_mem (s : State) (e : StepOutcome) : (s.raised e).mem = s.mem := rfl
@[simp] theorem State.raised_waiting (s : State) (e : StepOutcome) : (s.raised e).waiting = s.waiting := rfl
@[simp] theorem State.raised_edge (s : State) (e : StepOutcome) : (s.raised e).edge = s.edge := rfl
@[simp] theorem State.raised_quit (s : State) (e : StepOutcome) : (s.raised e).quit = s.quit := rfl
@[simp] theorem State.raised_outcome (s : State) (e : StepOutcome) : (s.raised e).outcome = e := rfl
@[simp] theorem State.raised_redraw (s : State) (e : StepOutcome) : (s.raised e).redraw = false := rfl
@[simp] theorem State.raised_beep (s : State) (e : StepOutcome) : (s.raised e).beep = s.beep := rfl
@[simp] theorem State.raised_rndIn (s : State) (e : StepOutcome) : (s.raised e).rndIn = s.rndIn := rfl
@[simp] theorem State.raised_rndCount (s : State) (e : StepOutcome) : (s.raised e).rndCount = s.rndCount := rfl

/-! ### State.tick -/

@[simp] theorem State.tick_v (s : State) : (s.tick).v = s.v := rfl
@[simp] theorem State.tick_i (s : State) : (s.tick).i = s.i := rfl
@[simp] theorem State.tick_pc (s : State) : (s.tick).pc = s.pc := rfl
@[simp] theorem State.tick_sp (s : State) : (s.tick).sp = s.sp := rfl
@[simp] theorem State.tick_stack (s : State) : (s.tick).stack = s.stack := rfl
@[simp] theorem State.tick_dt (s : State) : (s.tick).dt = decTimer s.dt := rfl
@[simp] theorem State.tick_st (s : State) : (s.tick).st = decTimer s.st := rfl
@[simp] theorem State.tick_keys (s : State) : (s.tick).keys = s.keys := rfl
@[simp] theorem State.tick_fb (s : State) : (s.tick).fb = s.fb := rfl
@[simp] theorem State.tick_mem (s : State) : (s.tick).mem = s.mem := rfl
@[simp] theorem State.tick_waiting (s : State) : (s.tick).waiting = s.waiting := rfl
@[simp] theorem State.tick_edge (s : State) : (s.tick).edge = s.edge := rfl
@[simp] theorem State.tick_quit (s : State) : (s.tick).quit = s.quit := rfl
@[simp] theorem State.tick_outcome (s : State) : (s.tick).outcome = s.outcome := rfl
@[simp] theorem State.tick_redraw (s : State) : (s.tick).redraw = s.redraw := rfl
@[simp] theorem State.tick_beep (s : State) : (s.tick).beep = decide (s.st = 1) := rfl
@[simp] theorem State.tick_rndIn (s : State) : (s.tick).rndIn = s.rndIn := rfl
@[simp] theorem State.tick_rndCount (s : State) : (s.tick).rndCount = s.rndCount := rfl

/-! ### State.nextRnd -/

@[simp] theorem State.nextRnd_v (s : State) : (s.nextRnd).v = s.v := rfl
@[simp] theorem State.nextRnd_i (s : State) : (s.nextRnd).i = s.i := rfl
@[simp] theorem State.nextRnd_pc (s : State) : (s.nextRnd).pc = s.pc := rfl
@[simp] theorem State.nextRnd_sp (s : State) : (s.nextRnd).sp = s.sp := rfl
@[simp] theorem State.nextRnd_stack (s : State) : (s.nextRnd).stack = s.stack := rfl
@[simp] theorem State.nextRnd_dt (s : State) : (s.nextRnd).dt = s.dt := rfl
@[simp] theorem State.nextRnd_st (s : State) : (s.nextRnd).st = s.st := rfl
@[simp] theorem State.nextRnd_keys (s : State) : (s.nextRnd).keys = s.keys := rfl
@[simp] theorem State.nextRnd_fb (s : State) : (s.nextRnd).fb = s.fb := rfl
@[simp] theorem State.nextRnd_mem (s : State) : (s.nextRnd).mem = s.mem := rfl
@[simp] theorem State.nextRnd_waiting (s : State) : (s.nextRnd).waiting = s.waiting := rfl
@[simp] theorem State.nextRnd_edge (s : State) : (s.nextRnd).edge = s.edge := rfl
@[simp] theorem State.nextRnd_quit (s : State) : (s.nextRnd).quit = s.quit := rfl
@[simp] theorem State.nextRnd_outcome (s : State) : (s.nextRnd).outcome = s.outcome := rfl
@[simp] theorem State.nextRnd_redraw (s : State) : (s.nextRnd).redraw = s.redraw := rfl
@[simp] theorem State.nextRnd_beep (s : State) : (s.nextRnd).beep = s.beep := rfl
@[simp] theorem State.nextRnd_rndIn (s : State) : (s.nextRnd).rndIn = none := rfl
@[simp] theorem State.nextRnd_rndCount (s : State) : (s.nextRnd).rndCount = s.rndCount + 1 := rfl

/-! ### State.completeKeyWait -/

@[simp] theorem State.completeKeyWait_v (s : State) (x : Reg) (k : Key) : (s.completeKeyWait x k).v = s.v.set x.val (BitVec.ofNat 8 k.val) x.isLt := rfl
@[simp] theorem State.completeKeyWait_i (s : State) (x : Reg) (k : Key) : (s.completeKeyWait x k).i = s.i := rfl
@[simp] theorem State.completeKeyWait_pc (s : State) (x : Reg) (k : Key) : (s.completeKeyWait x k).pc = s.pc + 2 := rfl
@[simp] theorem State.completeKeyWait_sp (s : State) (x : Reg) (k : Key) : (s.completeKeyWait x k).sp = s.sp := rfl
@[simp] theorem State.completeKeyWait_stack (s : State) (x : Reg) (k : Key) : (s.completeKeyWait x k).stack = s.stack := rfl
@[simp] theorem State.completeKeyWait_dt (s : State) (x : Reg) (k : Key) : (s.completeKeyWait x k).dt = s.dt := rfl
@[simp] theorem State.completeKeyWait_st (s : State) (x : Reg) (k : Key) : (s.completeKeyWait x k).st = s.st := rfl
@[simp] theorem State.completeKeyWait_keys (s : State) (x : Reg) (k : Key) : (s.completeKeyWait x k).keys = s.keys := rfl
@[simp] theorem State.completeKeyWait_fb (s : State) (x : Reg) (k : Key) : (s.completeKeyWait x k).fb = s.fb := rfl
@[simp] theorem State.completeKeyWait_mem (s : State) (x : Reg) (k : Key) : (s.completeKeyWait x k).mem = s.mem := rfl
@[simp] theorem State.completeKeyWait_waiting (s : State) (x : Reg) (k : Key) : (s.completeKeyWait x k).waiting = none := rfl
@[simp] theorem State.completeKeyWait_edge (s : State) (x : Reg) (k : Key) : (s.completeKeyWait x k).edge = none := rfl
@[simp] theorem State.completeKeyWait_quit (s : State) (x : Reg) (k : Key) : (s.completeKeyWait x k).quit = s.quit := rfl
@[simp] theorem State.completeKeyWait_outcome (s : State) (x : Reg) (k : Key) : (s.completeKeyWait x k).outcome = .ok := rfl
@[simp] theorem State.completeKeyWait_redraw (s : State) (x : Reg) (k : Key) : (s.completeKeyWait x k).redraw = false := rfl
@[simp] theorem State.completeKeyWait_beep (s : State) (x : Reg) (k : Key) : (s.completeKeyWait x k).beep = s.beep := rfl
@[simp] theorem State.completeKeyWait_rndIn (s : State) (x : Reg) (k : Key) : (s.completeKeyWait x k).rndIn = s.rndIn := rfl
@[simp] theorem State.completeKeyWait_rndCount (s : State) (x : Reg) (k : Key) : (s.completeKeyWait x k).rndCount = s.rndCount := rfl

/-! ### State.architectural -/

@[simp] theorem State.architectural_v (s : State) : (s.architectural).v = s.v := rfl
@[simp] theorem State.architectural_i (s : State) : (s.architectural).i = s.i := rfl
@[simp] theorem State.architectural_pc (s : State) : (s.architectural).pc = s.pc := rfl
@[simp] theorem State.architectural_sp (s : State) : (s.architectural).sp = s.sp := rfl
@[simp] theorem State.architectural_stack (s : State) : (s.architectural).stack = s.stack := rfl
@[simp] theorem State.architectural_dt (s : State) : (s.architectural).dt = s.dt := rfl
@[simp] theorem State.architectural_st (s : State) : (s.architectural).st = s.st := rfl
@[simp] theorem State.architectural_keys (s : State) : (s.architectural).keys = s.keys := rfl
@[simp] theorem State.architectural_fb (s : State) : (s.architectural).fb = s.fb := rfl
@[simp] theorem State.architectural_mem (s : State) : (s.architectural).mem = s.mem := rfl
@[simp] theorem State.architectural_waiting (s : State) : (s.architectural).waiting = s.waiting := rfl
@[simp] theorem State.architectural_edge (s : State) : (s.architectural).edge = s.edge := rfl
@[simp] theorem State.architectural_quit (s : State) : (s.architectural).quit = s.quit := rfl
@[simp] theorem State.architectural_outcome (s : State) : (s.architectural).outcome = .ok := rfl
@[simp] theorem State.architectural_redraw (s : State) : (s.architectural).redraw = false := rfl
@[simp] theorem State.architectural_beep (s : State) : (s.architectural).beep = false := rfl
@[simp] theorem State.architectural_rndIn (s : State) : (s.architectural).rndIn = none := rfl
@[simp] theorem State.architectural_rndCount (s : State) : (s.architectural).rndCount = 0 := rfl

/-! ### Registers -/

@[simp] theorem State.reg_setReg (s : State) (x y : Reg) (b : Byte) :
    (s.setReg x b).reg y = if y = x then b else s.reg y := by
  simp only [State.reg, State.setReg, Vector.get_eq_getElem, Vector.getElem_set, Fin.ext_iff, eq_comm]

@[simp] theorem State.reg_advance (s : State) (x : Reg) (n : Word) : (s.advance n).reg x = s.reg x := rfl
@[simp] theorem State.reg_jump (s : State) (x : Reg) (w : Word) : (s.jump w).reg x = s.reg x := rfl
@[simp] theorem State.reg_raised (s : State) (x : Reg) (e : StepOutcome) : (s.raised e).reg x = s.reg x := rfl
@[simp] theorem State.reg_tick (s : State) (x : Reg) : s.tick.reg x = s.reg x := rfl
@[simp] theorem State.reg_nextRnd (s : State) (x : Reg) : s.nextRnd.reg x = s.reg x := rfl

/-- The byte of V[x] does not depend on any field but `v`. -/
theorem State.reg_congr {s t : State} (h : t.v = s.v) (x : Reg) : t.reg x = s.reg x := by
  simp only [State.reg, h]

/-- Two register files that hold the same bytes are equal. -/
theorem State.v_ext {s t : State} (h : ∀ x, t.reg x = s.reg x) : t.v = s.v := by
  refine Vector.ext fun k hk => ?_
  simpa [State.reg, Vector.get_eq_getElem] using h ⟨k, hk⟩

/-! ### Skips -/

theorem State.skipIf_eq (s : State) (c : Bool) : s.skipIf c = { s with pc := s.pc + (if c then 4 else 2) } := rfl

end Sys2Proof.Machine
end

