-- ==== Sys2Proof/Laws/Ops.lean ====
section
/-! SUPPORT. What each shared operation can do, said once: how an instruction completes, errs or suspends, what a checked block or
key leads to, and how a transition ends. -/

namespace Sys2Proof.Machine

/-! ### Completing and erring -/

@[simp] theorem done_eq (s : State) : done s = .next { s with outcome := .ok, redraw := false } := rfl

@[simp] theorem doneRedraw_eq (s : State) : doneRedraw s = .next { s with outcome := .ok, redraw := true } := rfl

@[simp] theorem raiseError_eq (e : StepOutcome) (s : State) :
    raiseError e s = .next { s with outcome := e, redraw := false } := rfl

@[simp] theorem suspend_eq (x : Reg) (s : State) :
    suspend x s = .next { s with waiting := some x, edge := none, outcome := .suspended, redraw := false } := rfl

@[simp] theorem mapNext_next (f : State → State) (s : State) : mapNext f (.next s) = .next (f s) := rfl

/-- An answer under `mapNext` is a next state only from a next state. -/
theorem mapNext_eq_next {f : State → State} {r : Result} {t : State} (h : mapNext f r = .next t) :
    ∃ u, r = .next u ∧ t = f u := by
  cases r with
  | next u => exact ⟨u, rfl, by simpa using h.symm⟩
  | fault _ => simp [mapNext] at h
  | refused _ => simp [mapNext] at h

@[simp] theorem orOutOfBounds_ok {α : Type} (v : α) (s : State) (k : α → Result) :
    orOutOfBounds (.ok v) s k = k v := rfl

@[simp] theorem orOutOfBounds_error {α : Type} (a : Nat) (s : State) (k : α → Result) :
    orOutOfBounds (.error a) s k = .next { s with outcome := .outOfBounds .memory a, redraw := false } := rfl

/-- A checked block either completes with its value or reports its lowest invalid address. -/
theorem orOutOfBounds_cases {α : Type} (r : Except Nat α) (s : State) (k : α → Result) :
    (∃ v, r = .ok v ∧ orOutOfBounds r s k = k v) ∨
    (∃ a, r = .error a ∧ orOutOfBounds r s k = .next { s with outcome := .outOfBounds .memory a, redraw := false }) := by
  cases r with
  | ok v => exact .inl ⟨v, rfl, rfl⟩
  | error a => exact .inr ⟨a, rfl, rfl⟩

/-- A key named by V[x] that is a key. -/
theorem withKey_of_lt {x : Reg} {s : State} {k : Bool → Result} (h : (s.reg x).toNat < 16) :
    withKey x s k = k (s.key ⟨(s.reg x).toNat, h⟩) := by
  simp only [withKey, h, dif_pos]

/-- A key code above 15 in V[x]. -/
theorem withKey_of_ge {x : Reg} {s : State} {k : Bool → Result} (h : 16 ≤ (s.reg x).toNat) :
    withKey x s k = .next { s with outcome := .outOfBounds .keypad (s.reg x).toNat, redraw := false } := by
  rw [withKey, dif_neg (by omega)]
  rfl

/-- An overflowing CALL answers a next state under every policy, with no transition lost. -/
theorem applyOverflow_next (p : OverflowPolicy) (nnn : BitVec 12) (s : State) :
    ∃ t, applyOverflow p nnn s = .next t := by
  cases p with
  | fault => exact ⟨_, rfl⟩
  | other f _ => exact ⟨_, rfl⟩

/-- An overflowing CALL keeps a state legal under every policy. -/
theorem applyOverflow_legal {p : OverflowPolicy} {nnn : BitVec 12} {s t : State} (h : s.legal)
    (e : applyOverflow p nnn s = .next t) : t.legal := by
  cases p with
  | fault => cases e; exact h
  | other f keeps => cases e; exact keeps nnn s.architectural h

/-- What an overflowing CALL can leave: an error and nothing else, or a completed effect. -/
theorem applyOverflow_cases {p : OverflowPolicy} {nnn : BitVec 12} {s t : State} (e : applyOverflow p nnn s = .next t) :
    t = { s with outcome := .stackOverflow, redraw := false } ∨
    ∃ f, t.outcome = .ok ∧ t.redraw = false ∧ t = s.overflowed f nnn := by
  cases p with
  | fault => cases e; exact .inl rfl
  | other f _ => cases e; exact .inr ⟨f, rfl, rfl, rfl⟩

/-! ### CALL -/

theorem callWith_of_lt {p : OverflowPolicy} {nnn : BitVec 12} {s : State} (h : s.sp.val < 16) :
    callWith p nnn s = .next { (s.push (s.pc + 2) h).jump (zext12 nnn) with outcome := .ok, redraw := false } := by
  simp only [callWith, h, dif_pos, done_eq]

theorem callWith_of_full {p : OverflowPolicy} {nnn : BitVec 12} {s : State} (h : s.sp.val = 16) :
    callWith p nnn s = applyOverflow p nnn s := by
  simp [callWith, h]

/-! ### The end of a transition -/

theorem decTimer_eq_ticked (t : Byte) : decTimer t = ticked t := by
  unfold decTimer ticked
  apply BitVec.eq_of_toNat_eq
  have h1 : (1 : Byte).toNat = 1 := rfl
  split <;> simp only [BitVec.toNat_sub, BitVec.toNat_ofNat, h1] <;> have := t.isLt <;> omega

theorem ticked_toNat (t : Byte) : (ticked t).toNat = t.toNat - 1 := by
  simp only [ticked, BitVec.toNat_ofNat]
  have := t.isLt
  omega

theorem beep_iff (t : Byte) : decide (t = 1) = decide (t.toNat = 1) := by
  simp [BitVec.toNat_eq]

/-- The end of a suspended transition: no tick. -/
theorem endStep_suspended {s : State} (h : s.outcome = .suspended) :
    s.endStep = { s with beep := false, rndIn := none, rndCount := s.rndCount + 1 } := by
  simp only [State.endStep, h, State.nextRnd]

/-- The end of every other transition: one tick. -/
theorem endStep_ticks {s : State} (h : s.outcome ≠ .suspended) :
    s.endStep = { s with
      beep := decide (s.st.toNat = 1), dt := ticked s.dt, st := ticked s.st, rndIn := none,
      rndCount := s.rndCount + 1 } := by
  unfold State.endStep
  split <;> first | exact absurd ‹_› h | simp only [State.tick, State.nextRnd, decTimer_eq_ticked, beep_iff]

/-! ### Fields the end of a transition leaves alone -/

@[simp] theorem State.endStep_v (s : State) : s.endStep.v = s.v := by unfold State.endStep; split <;> rfl
@[simp] theorem State.endStep_i (s : State) : s.endStep.i = s.i := by unfold State.endStep; split <;> rfl
@[simp] theorem State.endStep_pc (s : State) : s.endStep.pc = s.pc := by unfold State.endStep; split <;> rfl
@[simp] theorem State.endStep_sp (s : State) : s.endStep.sp = s.sp := by unfold State.endStep; split <;> rfl
@[simp] theorem State.endStep_stack (s : State) : s.endStep.stack = s.stack := by unfold State.endStep; split <;> rfl
@[simp] theorem State.endStep_keys (s : State) : s.endStep.keys = s.keys := by unfold State.endStep; split <;> rfl
@[simp] theorem State.endStep_fb (s : State) : s.endStep.fb = s.fb := by unfold State.endStep; split <;> rfl
@[simp] theorem State.endStep_mem (s : State) : s.endStep.mem = s.mem := by unfold State.endStep; split <;> rfl
@[simp] theorem State.endStep_waiting (s : State) : s.endStep.waiting = s.waiting := by unfold State.endStep; split <;> rfl
@[simp] theorem State.endStep_edge (s : State) : s.endStep.edge = s.edge := by unfold State.endStep; split <;> rfl
@[simp] theorem State.endStep_quit (s : State) : s.endStep.quit = s.quit := by unfold State.endStep; split <;> rfl
@[simp] theorem State.endStep_outcome (s : State) : s.endStep.outcome = s.outcome := by unfold State.endStep; split <;> simp_all
@[simp] theorem State.endStep_redraw (s : State) : s.endStep.redraw = s.redraw := by unfold State.endStep; split <;> rfl

/-! ### Registers in blocks -/

theorem setRegsFrom_get (v : Vector Byte 16) (k : Nat) (bs : List Byte) (r : Reg) (h : k + bs.length ≤ 16) :
    (setRegsFrom v k bs).get r = if k ≤ r.val ∧ r.val < k + bs.length then bs.getD (r.val - k) 0 else v.get r := by
  induction bs generalizing v k with
  | nil => simp [setRegsFrom]
  | cons b bs ih =>
    simp only [List.length_cons] at h
    simp only [setRegsFrom, ih (v.setIfInBounds k b) (k + 1) (by omega), List.length_cons]
    by_cases hk : r.val = k
    · rw [if_neg (by omega), if_pos (by omega), hk]
      simp [Vector.get_eq_getElem, hk]
    · by_cases h2 : k + 1 ≤ r.val ∧ r.val < k + 1 + bs.length
      · rw [if_pos h2, if_pos (by omega)]
        obtain ⟨j, hj⟩ := Nat.exists_eq_add_of_le h2.1
        rw [hj, show k + 1 + j - (k + 1) = j by omega, show k + 1 + j - k = j + 1 by omega]
        simp
      · rw [if_neg h2, if_neg (by omega)]
        simp [Vector.get_eq_getElem, Ne.symm hk]

theorem State.regsUpTo_length (s : State) (x : Reg) : (s.regsUpTo x).length = x.val + 1 := by
  simp only [State.regsUpTo, List.length_take, Vector.length_toList]
  have := x.isLt
  omega

theorem State.regsUpTo_getD (s : State) (x r : Reg) (h : r ≤ x) : (s.regsUpTo x).getD r.val 0 = s.reg r := by
  have hr : r.val < x.val + 1 := Nat.lt_succ_of_le h
  simp [State.regsUpTo, State.reg, Vector.get_eq_getElem, List.getD_eq_getElem?_getD, hr]

/-! ### Widths -/

theorem zext12_toNat (nnn : BitVec 12) : (zext12 nnn).toNat = nnn.toNat := by
  simp only [zext12, BitVec.toNat_setWidth]
  have := nnn.isLt
  omega

theorem zext8_toNat (b : Byte) : (zext8 b).toNat = b.toNat := by
  simp only [zext8, BitVec.toNat_setWidth]
  have := b.isLt
  omega

theorem flagOf_eq (c : Bool) : flagOf c = BitVec.ofNat 8 (if c then 1 else 0) := by
  cases c <;> rfl

end Sys2Proof.Machine
end

