-- ==== Sys2Proof/Laws/Operands.lean ====
section
/-! SUPPORT. What each operand form can do, said once in the terms of Safety.lean: a register or index load, a flag and then a
result, a skip, a checked store; and the values of the flags and of 8-bit arithmetic as naturals. -/

namespace Sys2Proof.Machine

/-! ### Forms -/

/-- PC of a state whose PC is that of `s` plus a word. -/
theorem pcAdvancedBy_of_add {s t : State} {n : Nat} {w : Word} (h : t.pc = s.pc + w) (hw : w.toNat = n) :
    PcAdvancedBy n s t := by
  rw [PcAdvancedBy, h, BitVec.toNat_add, hw]

/-- The V registers of a state that has those of `s` after one write. -/
theorem onlyRegisterIs_of_setReg {s t : State} {x : Reg} {b : Byte} (h : t.v = (s.setReg x b).v) :
    OnlyRegisterIs x b s t := by
  intro r
  rw [State.reg_congr h, State.reg_setReg]

/-- A register load sets its register, PC, and nothing else. -/
theorem setsRegister_of_loadReg {i : Instr} {x : Reg} {n : Nat} {s : State} {b : Byte} (h : exec i s = loadReg x b s)
    (hb : b = BitVec.ofNat 8 n) : SetsRegister i x n s := by
  refine ⟨_, h, ?_, pcAdvancedBy_of_add (w := 2) rfl rfl, rfl⟩
  rw [← hb]
  exact onlyRegisterIs_of_setReg rfl

/-- A flag and then a result, X not VF: the result reads the flag just written where Y is VF. -/
theorem setsRegisterAndFlag_of_flagThenResult {i : Instr} {x y : Reg} {n f : Nat} {s : State}
    {flag result : Byte → Byte → Byte} (h : exec i s = flagThenResult flag result x y s) (hx : x ≠ VF)
    (hf : flag (s.reg x) (s.reg y) = BitVec.ofNat 8 f)
    (hn : result (s.reg x) (if y = VF then BitVec.ofNat 8 f else s.reg y) = BitVec.ofNat 8 n) :
    SetsRegisterAndFlag i x n f s := by
  refine ⟨_, h, ?_, pcAdvancedBy_of_add (w := 2) rfl rfl, rfl⟩
  intro r
  have key : ∀ t : State, t.v = ((s.setReg VF (BitVec.ofNat 8 f)).setReg x
        (result ((s.setReg VF (BitVec.ofNat 8 f)).reg x) ((s.setReg VF (BitVec.ofNat 8 f)).reg y))).v →
      t.reg r = if r = x then BitVec.ofNat 8 n else if r = VF then BitVec.ofNat 8 f else s.reg r := by
    intro t ht
    rw [State.reg_congr ht]
    simp only [State.reg_setReg, hx, if_false, hn]
  apply key
  rw [← hf]
  rfl

/-- A flag and then a result, X being VF: the result, computed from the flag, is what VF keeps. -/
theorem setsRegister_of_flagThenResult {i : Instr} {y : Reg} {n : Nat} {s : State} {flag result : Byte → Byte → Byte}
    {f : Byte} (h : exec i s = flagThenResult flag result VF y s) (hf : flag (s.reg VF) (s.reg y) = f)
    (hn : result f (if y = VF then f else s.reg y) = BitVec.ofNat 8 n) : SetsRegister i VF n s := by
  refine ⟨_, h, ?_, pcAdvancedBy_of_add (w := 2) rfl rfl, rfl⟩
  intro r
  have key : ∀ t : State, t.v = ((s.setReg VF f).setReg VF
        (result ((s.setReg VF f).reg VF) ((s.setReg VF f).reg y))).v →
      t.reg r = if r = VF then BitVec.ofNat 8 n else s.reg r := by
    intro t ht
    rw [State.reg_congr ht]
    simp only [State.reg_setReg, if_true, hn]
    split <;> rfl
  apply key
  rw [← hf]
  rfl

/-- A skip changes PC alone, by 4 or by 2. -/
theorem skipsWhen_of_skipIf {i : Instr} {c : Prop} {s : State} {b : Bool} (h : exec i s = done (s.skipIf b))
    (hb : b = true ↔ c) : SkipsWhen i c s := by
  refine ⟨_, h, rfl, fun hc => ?_, fun hc => ?_⟩
  · have := hb.mpr hc
    subst this
    exact pcAdvancedBy_of_add (w := 4) rfl rfl
  · have : b = false := by simpa using fun h => hc (hb.mp h)
    subst this
    exact pcAdvancedBy_of_add (w := 2) rfl rfl

/-- A skip completes with VF as it was. -/
theorem pcSkips_of_skipIf {i : Instr} {c : Prop} {s : State} {b : Bool} (h : exec i s = done (s.skipIf b))
    (hb : b = true ↔ c) : PcSkips i c s := by
  obtain ⟨t, e, h1, h2, h3⟩ := skipsWhen_of_skipIf h hb
  refine ⟨t, e, ?_, h2, h3⟩
  rw [h1]
  rfl

/-- A store of bytes at I either completes, the bytes written, or reports the lowest invalid address. -/
theorem storeBlock_ok {bs : List Byte} {s : State} (h : s.i.toNat + bs.length ≤ 4096) :
    storeBlock bs s = .next
      { s with mem := s.mem.putBytes s.i.toNat bs, pc := s.pc + 2, outcome := .ok, redraw := false } := by
  rw [storeBlock, State.indexAddr, Memory.writeBlock_ok h]
  rfl

theorem storeBlock_error {bs : List Byte} {s : State} (h0 : 0 < bs.length) (h : 4096 < s.i.toNat + bs.length) :
    storeBlock bs s = .next
      { s with outcome := .outOfBounds .memory (max s.i.toNat 4096), redraw := false } := by
  rw [storeBlock, State.indexAddr, Memory.writeBlock_error h0 h]
  rfl

/-! ### Flags and 8-bit arithmetic as naturals -/

theorem carryFlag_eq (a b : Byte) : carryFlag a b = BitVec.ofNat 8 (if 255 < a.toNat + b.toNat then 1 else 0) := by
  rw [carryFlag, flagOf_eq]
  simp

theorem noBorrowFlag_eq (a b : Byte) : noBorrowFlag a b = BitVec.ofNat 8 (if a.toNat < b.toNat then 0 else 1) := by
  rw [noBorrowFlag, flagOf_eq]
  congr 1
  simp
  split <;> split <;> omega

theorem shiftedOutRight_eq (a : Byte) : shiftedOutRight a = BitVec.ofNat 8 (a.toNat % 2) := by
  apply BitVec.eq_of_toNat_eq
  simp [shiftedOutRight, Nat.and_one_is_mod]
  omega

theorem rawTopBit_eq (a : Byte) : rawTopBit a = BitVec.ofNat 8 (if 128 ≤ a.toNat then 128 else 0) := by
  revert a
  decide

theorem add8_eq (a b : Byte) : add8 a b = BitVec.ofNat 8 ((a.toNat + b.toNat) % 256) := by
  apply BitVec.eq_of_toNat_eq
  simp [add8]

theorem sub8_eq (a b : Byte) : sub8 a b = BitVec.ofNat 8 ((256 + a.toNat - b.toNat) % 256) := by
  apply BitVec.eq_of_toNat_eq
  simp [sub8, BitVec.toNat_sub]
  have := b.isLt
  omega

theorem shr8_eq (a : Byte) : shr8 a = BitVec.ofNat 8 (a.toNat / 2) := by
  apply BitVec.eq_of_toNat_eq
  simp [shr8, Nat.shiftRight_eq_div_pow]
  omega

theorem shl8_eq (a : Byte) : shl8 a = BitVec.ofNat 8 (a.toNat * 2 % 256) := by
  apply BitVec.eq_of_toNat_eq
  simp [shl8, Nat.shiftLeft_eq]

end Sys2Proof.Machine
end

