-- ==== Sys2Proof/Laws/PerInstr.lean ====
section
/-! SUPPORT. One lemma per instruction, over all its operands: its encoding is selected by its own row of R103, mask and match. -/

namespace Sys2Proof.Laws.TableRow

/-- The word of `i` is selected by the row of `i` (R103). -/
def Statement (i : Instr) : Prop :=
  encode i &&& i.rowMask = i.rowMatch

theorem cls : Statement .cls := rfl
theorem ret : Statement .ret := rfl
theorem sys (nnn : BitVec 12) : Statement (.sys nnn) := encNNN_and_class 0x0#4 nnn
theorem jp (nnn : BitVec 12) : Statement (.jp nnn) := encNNN_and_class 0x1#4 nnn
theorem call (nnn : BitVec 12) : Statement (.call nnn) := encNNN_and_class 0x2#4 nnn
theorem seImm (x : Reg) (nn : Byte) : Statement (.seImm x nn) := encXNN_and_class 0x3#4 x nn
theorem sneImm (x : Reg) (nn : Byte) : Statement (.sneImm x nn) := encXNN_and_class 0x4#4 x nn
theorem seReg (x : Reg) (y : Reg) : Statement (.seReg x y) := encXYN_and_low 0x5#4 x y 0x0#4
theorem ldImm (x : Reg) (nn : Byte) : Statement (.ldImm x nn) := encXNN_and_class 0x6#4 x nn
theorem addImm (x : Reg) (nn : Byte) : Statement (.addImm x nn) := encXNN_and_class 0x7#4 x nn
theorem ldReg (x : Reg) (y : Reg) : Statement (.ldReg x y) := encXYN_and_low 0x8#4 x y 0x0#4
theorem orReg (x : Reg) (y : Reg) : Statement (.orReg x y) := encXYN_and_low 0x8#4 x y 0x1#4
theorem andReg (x : Reg) (y : Reg) : Statement (.andReg x y) := encXYN_and_low 0x8#4 x y 0x2#4
theorem xorReg (x : Reg) (y : Reg) : Statement (.xorReg x y) := encXYN_and_low 0x8#4 x y 0x3#4
theorem addReg (x : Reg) (y : Reg) : Statement (.addReg x y) := encXYN_and_low 0x8#4 x y 0x4#4
theorem subReg (x : Reg) (y : Reg) : Statement (.subReg x y) := encXYN_and_low 0x8#4 x y 0x5#4
theorem shr (x : Reg) (y : Reg) : Statement (.shr x y) := encXYN_and_low 0x8#4 x y 0x6#4
theorem subn (x : Reg) (y : Reg) : Statement (.subn x y) := encXYN_and_low 0x8#4 x y 0x7#4
theorem shl (x : Reg) (y : Reg) : Statement (.shl x y) := encXYN_and_low 0x8#4 x y 0xE#4
theorem sneReg (x : Reg) (y : Reg) : Statement (.sneReg x y) := encXYN_and_low 0x9#4 x y 0x0#4
theorem ldI (nnn : BitVec 12) : Statement (.ldI nnn) := encNNN_and_class 0xA#4 nnn
theorem jpV0 (nnn : BitVec 12) : Statement (.jpV0 nnn) := encNNN_and_class 0xB#4 nnn
theorem rnd (x : Reg) (nn : Byte) : Statement (.rnd x nn) := encXNN_and_class 0xC#4 x nn
theorem drw (x : Reg) (y : Reg) (n : BitVec 4) : Statement (.drw x y n) := encXYN_and_class 0xD#4 x y n
theorem skp (x : Reg) : Statement (.skp x) := encXNN_and_low 0xE#4 x 0x9E#8
theorem sknp (x : Reg) : Statement (.sknp x) := encXNN_and_low 0xE#4 x 0xA1#8
theorem ldVDt (x : Reg) : Statement (.ldVDt x) := encXNN_and_low 0xF#4 x 0x07#8
theorem ldVK (x : Reg) : Statement (.ldVK x) := encXNN_and_low 0xF#4 x 0x0A#8
theorem ldDtV (x : Reg) : Statement (.ldDtV x) := encXNN_and_low 0xF#4 x 0x15#8
theorem ldStV (x : Reg) : Statement (.ldStV x) := encXNN_and_low 0xF#4 x 0x18#8
theorem addI (x : Reg) : Statement (.addI x) := encXNN_and_low 0xF#4 x 0x1E#8
theorem ldF (x : Reg) : Statement (.ldF x) := encXNN_and_low 0xF#4 x 0x29#8
theorem ldB (x : Reg) : Statement (.ldB x) := encXNN_and_low 0xF#4 x 0x33#8
theorem storeRegs (x : Reg) : Statement (.storeRegs x) := encXNN_and_low 0xF#4 x 0x55#8
theorem loadRegs (x : Reg) : Statement (.loadRegs x) := encXNN_and_low 0xF#4 x 0x65#8

end Sys2Proof.Laws.TableRow
end

