-- ==== Sys2Proof/Laws/Step.lean ====
section
/-! SUPPORT. The step said once: which of its cases holds and what it answers there (the order of R266), and that a placed word is
the next one run. -/

namespace Sys2Proof.Machine

theorem step_eq (s : State) : step s = cycle s := rfl

theorem fetch_of_le {s : State} (h : s.pc.toNat + 1 ≤ 4095) :
    s.fetch = .ok (wordOfBytes (s.mem.byteAt s.pc.toNat) (s.mem.byteAt (s.pc.toNat + 1))) :=
  Memory.fetch_ok h

theorem fetch_of_gt {s : State} (h : 4095 < s.pc.toNat + 1) : s.fetch = .error (max s.pc.toNat 4096) :=
  Memory.fetch_error h

theorem cycle_quit {s : State} (h : s.quit = true) : cycle s = .fault .quitHalt := by
  simp only [cycle, h, if_true]

theorem cycle_waiting {s : State} {x : Reg} (hq : s.quit = false) (hw : s.waiting = some x) :
    cycle s = resumeKeyWait x s := by
  simp [cycle, hq, hw]

theorem cycle_running {s : State} (hq : s.quit = false) (hw : s.waiting = none) : cycle s = fetchAndRun s := by
  simp [cycle, hq, hw]

/-- A step whose word decodes runs that instruction and then ends the transition. -/
theorem step_of_runsNext {i : Instr} {s : State} (h : RunsNext i s) : step s = mapNext State.endStep (exec i s) := by
  obtain ⟨hq, hw, hp, hd⟩ := h
  simp only [step, cycle_running hq hw, fetchAndRun, fetch_of_le hp, runWord, hd]

/-- Every case of a step that answers a next state, in the order of R266: a completed key wait, a fetch beyond memory, a word
no row selects, or an instruction; each with the state it leaves. -/
theorem step_cases {s t : State} (h : step s = .next t) :
    s.quit = false ∧
    ((∃ x k, s.waiting = some x ∧ s.edge = some k ∧ t = (s.completeKeyWait x k).endStep) ∨
     (s.waiting = none ∧ 4095 < s.pc.toNat + 1 ∧
        t = (s.raised (.outOfBounds .memory (max s.pc.toNat 4096))).endStep) ∨
     (∃ w, s.waiting = none ∧ s.pc.toNat + 1 ≤ 4095 ∧
        w = wordOfBytes (s.mem.byteAt s.pc.toNat) (s.mem.byteAt (s.pc.toNat + 1)) ∧ dispatch w = none ∧
        t = (s.raised (.invalidOpcode w)).endStep) ∨
     (∃ i u, RunsNext i s ∧ exec i s = .next u ∧ t = u.endStep)) := by
  rw [step_eq] at h
  cases hq : s.quit with
  | true => rw [cycle_quit hq] at h; cases h
  | false =>
    refine ⟨rfl, ?_⟩
    cases hw : s.waiting with
    | some x =>
      rw [cycle_waiting hq hw, resumeKeyWait] at h
      cases he : s.edge with
      | none => simp [he] at h
      | some k =>
        simp only [he] at h
        cases h
        exact .inl ⟨x, k, rfl, rfl, rfl⟩
    | none =>
      rw [cycle_running hq hw, fetchAndRun] at h
      by_cases hp : s.pc.toNat + 1 ≤ 4095
      · rw [fetch_of_le hp] at h
        simp only [runWord] at h
        cases hd : dispatch (wordOfBytes (s.mem.byteAt s.pc.toNat) (s.mem.byteAt (s.pc.toNat + 1))) with
        | none =>
          simp only [hd] at h
          cases h
          exact .inr (.inr (.inl ⟨_, rfl, hp, rfl, hd, rfl⟩))
        | some i =>
          simp only [hd] at h
          obtain ⟨u, hu, rfl⟩ := mapNext_eq_next h
          exact .inr (.inr (.inr ⟨i, u, ⟨hq, hw, hp, hd⟩, hu, rfl⟩))
      · rw [fetch_of_gt (by omega)] at h
        cases h
        exact .inr (.inl ⟨rfl, by omega, rfl⟩)

/-- A word placed in a state is the one its next step fetches: the instruction it decodes to runs next (log entry 5). -/
theorem withFetchWord_runsNext (s : State) (w : Nat) (i : Instr) (h : decodeTableWord 16 w = some i) :
    RunsNext i (s.withFetchWord 16 w) := by
  have hpc : (s.withFetchWord 16 w).pc.toNat + 1 ≤ 4095 := by
    simp only [State.withFetchWord, State.placeWord, State.readyToFetch]
    split
    · simp only [Config.memSize] at *; omega
    · decide
  refine ⟨rfl, rfl, hpc, ?_⟩
  have hm : (s.withFetchWord 16 w).mem =
      s.mem.putBytes (s.withFetchWord 16 w).pc.toNat (bytesOfWord (tableWord 16 w)) := rfl
  rw [hm]
  simp only [Memory.byteAt_putBytes]
  unfold decodeTableWord at h
  revert h
  simp [bytesOfWord, decodeBytes]
  cases hd : dispatch (wordOfBytes (BitVec.extractLsb' 8 8 (tableWord 16 w)) (BitVec.extractLsb' 0 8 (tableWord 16 w))) <;> simp

end Sys2Proof.Machine
end

