-- ==== Sys2Proof/Tests/Slice0.lean ====
section
/-! SUPPORT. Tests: the ill-formed terms, words written out from the encodings of R103, one step per vector of
95_test_vectors.md, and a witness for the hypotheses of each statement. The expected values are the spec's. -/

namespace Sys2Proof.Tests

open Sys2Proof.Machine

/-- The answer is a next state of which `p` holds. -/
def nextIs (r : Result) (p : State → Bool) : Bool :=
  match r with
  | .next t => p t
  | .fault _ => false
  | .refused _ => false

/-! ### Ill-formed terms are refused (R96) -/

theorem test_sys_0E0_ill_formed : (Instr.sys 0x0E0).wellFormed = false := by decide
theorem test_sys_0EE_ill_formed : (Instr.sys 0x0EE).wellFormed = false := by decide
theorem test_sys_0E1_well_formed : (Instr.sys 0x0E1).wellFormed = true := by decide

/-! ### Every constructor's word, bit by bit from R103's pattern -/

theorem test_decode_cls : dispatch 0b0000_0000_1110_0000 = some (.cls) := by decide
theorem test_decode_ret : dispatch 0b0000_0000_1110_1110 = some (.ret) := by decide
theorem test_decode_sys : dispatch 0b0000_0011_1010_0110 = some (.sys 0x3A6) := by decide
theorem test_decode_jp : dispatch 0b0001_0011_1010_0110 = some (.jp 0x3A6) := by decide
theorem test_decode_call : dispatch 0b0010_0011_1010_0110 = some (.call 0x3A6) := by decide
theorem test_decode_seImm : dispatch 0b0011_1010_1100_0111 = some (.seImm 0xA 0xC7) := by decide
theorem test_decode_sneImm : dispatch 0b0100_1010_1100_0111 = some (.sneImm 0xA 0xC7) := by decide
theorem test_decode_seReg : dispatch 0b0101_1010_0101_0000 = some (.seReg 0xA 0x5) := by decide
theorem test_decode_ldImm : dispatch 0b0110_1010_1100_0111 = some (.ldImm 0xA 0xC7) := by decide
theorem test_decode_addImm : dispatch 0b0111_1010_1100_0111 = some (.addImm 0xA 0xC7) := by decide
theorem test_decode_ldReg : dispatch 0b1000_1010_0101_0000 = some (.ldReg 0xA 0x5) := by decide
theorem test_decode_orReg : dispatch 0b1000_1010_0101_0001 = some (.orReg 0xA 0x5) := by decide
theorem test_decode_andReg : dispatch 0b1000_1010_0101_0010 = some (.andReg 0xA 0x5) := by decide
theorem test_decode_xorReg : dispatch 0b1000_1010_0101_0011 = some (.xorReg 0xA 0x5) := by decide
theorem test_decode_addReg : dispatch 0b1000_1010_0101_0100 = some (.addReg 0xA 0x5) := by decide
theorem test_decode_subReg : dispatch 0b1000_1010_0101_0101 = some (.subReg 0xA 0x5) := by decide
theorem test_decode_shr : dispatch 0b1000_1010_0101_0110 = some (.shr 0xA 0x5) := by decide
theorem test_decode_subn : dispatch 0b1000_1010_0101_0111 = some (.subn 0xA 0x5) := by decide
theorem test_decode_shl : dispatch 0b1000_1010_0101_1110 = some (.shl 0xA 0x5) := by decide
theorem test_decode_sneReg : dispatch 0b1001_1010_0101_0000 = some (.sneReg 0xA 0x5) := by decide
theorem test_decode_ldI : dispatch 0b1010_0011_1010_0110 = some (.ldI 0x3A6) := by decide
theorem test_decode_jpV0 : dispatch 0b1011_0011_1010_0110 = some (.jpV0 0x3A6) := by decide
theorem test_decode_rnd : dispatch 0b1100_1010_1100_0111 = some (.rnd 0xA 0xC7) := by decide
theorem test_decode_drw : dispatch 0b1101_1010_0101_1001 = some (.drw 0xA 0x5 0x9) := by decide
theorem test_decode_skp : dispatch 0b1110_1010_1001_1110 = some (.skp 0xA) := by decide
theorem test_decode_sknp : dispatch 0b1110_1010_1010_0001 = some (.sknp 0xA) := by decide
theorem test_decode_ldVDt : dispatch 0b1111_1010_0000_0111 = some (.ldVDt 0xA) := by decide
theorem test_decode_ldVK : dispatch 0b1111_1010_0000_1010 = some (.ldVK 0xA) := by decide
theorem test_decode_ldDtV : dispatch 0b1111_1010_0001_0101 = some (.ldDtV 0xA) := by decide
theorem test_decode_ldStV : dispatch 0b1111_1010_0001_1000 = some (.ldStV 0xA) := by decide
theorem test_decode_addI : dispatch 0b1111_1010_0001_1110 = some (.addI 0xA) := by decide
theorem test_decode_ldF : dispatch 0b1111_1010_0010_1001 = some (.ldF 0xA) := by decide
theorem test_decode_ldB : dispatch 0b1111_1010_0011_0011 = some (.ldB 0xA) := by decide
theorem test_decode_storeRegs : dispatch 0b1111_1010_0101_0101 = some (.storeRegs 0xA) := by decide
theorem test_decode_loadRegs : dispatch 0b1111_1010_0110_0101 = some (.loadRegs 0xA) := by decide

/-! ### Words no row selects, rejected by name (2.1) -/

theorem test_reject_5121 : decodeBytes [0x51, 0x21] = .error (.invalidOpcode 0x5121) := by decide
theorem test_reject_9AB1 : decodeBytes [0x9A, 0xB1] = .error (.invalidOpcode 0x9AB1) := by decide
theorem test_reject_8128 : decodeBytes [0x81, 0x28] = .error (.invalidOpcode 0x8128) := by decide
theorem test_reject_812F : decodeBytes [0x81, 0x2F] = .error (.invalidOpcode 0x812F) := by decide
theorem test_reject_E0A0 : decodeBytes [0xE0, 0xA0] = .error (.invalidOpcode 0xE0A0) := by decide
theorem test_reject_F000 : decodeBytes [0xF0, 0x00] = .error (.invalidOpcode 0xF000) := by decide
theorem test_reject_FFFF : decodeBytes [0xFF, 0xFF] = .error (.invalidOpcode 0xFFFF) := by decide
theorem test_reject_one_byte : decodeBytes [0x12] = .error .truncated := by decide

/-! ### One step per vector of 95_test_vectors.md -/

/-- 2.5 CLS: every pixel 0, VF kept, redraw. -/
theorem test_cls_clears : nextIs (step (({ (State.reset).setReg 15 3 with fb := setPixel (setPixel State.reset.fb 0 0 true) 63 31 true }).withFetchWord 16 0x00E0)) (fun t => pixel t.fb 0 0 == false && pixel t.fb 63 31 == false && t.reg 15 == 3 && t.redraw && t.pc == 0x202) = true := by
  decide

/-- 2.2 RET pops; the entry is kept. -/
theorem test_ret_pops : nextIs (step (({ State.reset with sp := 1, stack := State.reset.stack.set 0 0x304 }).withFetchWord 16 0x00EE)) (fun t => t.pc == 0x304 && t.sp == 0 && t.stack[0] == 0x304) = true := by
  decide

/-- 2.2 RET with empty stack. -/
theorem test_ret_empty : nextIs (step ((State.reset).withFetchWord 16 0x00EE)) (fun t => t.pc == 0x202 && t.sp == 0) = true := by
  decide

/-- 2.2 SYS no-op. -/
theorem test_sys_noop : nextIs (step ((State.reset).withFetchWord 16 0x0123)) (fun t => t.pc == 0x202 && t.outcome == .ok) = true := by
  decide

/-- 2.2 JP. -/
theorem test_jp : nextIs (step ((State.reset).withFetchWord 16 0x1ABC)) (fun t => t.pc == 0xABC) = true := by
  decide

/-- 2.2 JP to an odd target. -/
theorem test_jp_odd : nextIs (step ((State.reset).withFetchWord 16 0x1201)) (fun t => t.pc == 0x201) = true := by
  decide

/-- E8: the word 0x2300 at 0x200. -/
theorem test_call : nextIs (step ((State.reset).withFetchWord 16 0x2300)) (fun t => t.pc == 0x300 && t.sp == 1 && t.stack[0] == 0x202) = true := by
  decide

/-- 2.2 SE imm taken. -/
theorem test_seImm_taken : nextIs (step (((State.reset).setReg 3 0x42).withFetchWord 16 0x3342)) (fun t => t.pc == 0x204) = true := by
  decide

/-- 2.2 SE imm not taken. -/
theorem test_seImm_not_taken : nextIs (step (((State.reset).setReg 3 0x41).withFetchWord 16 0x3342)) (fun t => t.pc == 0x202) = true := by
  decide

/-- 2.2 SNE imm taken. -/
theorem test_sneImm_taken : nextIs (step (((State.reset).setReg 3 0x41).withFetchWord 16 0x4342)) (fun t => t.pc == 0x204) = true := by
  decide

/-- 2.2 SNE imm not taken. -/
theorem test_sneImm_not_taken : nextIs (step (((State.reset).setReg 3 0x42).withFetchWord 16 0x4342)) (fun t => t.pc == 0x202) = true := by
  decide

/-- 2.2 SE reg taken. -/
theorem test_seReg_taken : nextIs (step ((((State.reset).setReg 1 7).setReg 2 7).withFetchWord 16 0x5120)) (fun t => t.pc == 0x204) = true := by
  decide

/-- 2.2 SNE reg taken. -/
theorem test_sneReg_taken : nextIs (step ((((State.reset).setReg 1 7).setReg 2 8).withFetchWord 16 0x9120)) (fun t => t.pc == 0x204) = true := by
  decide

/-- 2.2 SNE reg not taken. -/
theorem test_sneReg_not_taken : nextIs (step ((((State.reset).setReg 1 7).setReg 2 7).withFetchWord 16 0x9120)) (fun t => t.pc == 0x202) = true := by
  decide

/-- 2.2 JP V0 adds to PC. -/
theorem test_jpV0_adds : nextIs (step (({ (State.reset).setReg 0 2 with pc := 0x202 }).withFetchWord 16 0xB004)) (fun t => t.pc == 0x208) = true := by
  decide

/-- 2.2 JP V0, the largest value. -/
theorem test_jpV0_largest : nextIs (step (({ (State.reset).setReg 0 0xFF with pc := 0xFFE }).withFetchWord 16 0xBFFF)) (fun t => t.pc == 0x20FC) = true := by
  decide

/-- 2.3 LD imm. -/
theorem test_ldImm : nextIs (step ((State.reset).withFetchWord 16 0x6A42)) (fun t => t.reg 10 == 0x42 && t.pc == 0x202 && t.outcome == .ok && t.redraw == false && t.beep == false) = true := by
  decide

/-- 2.3 ADD imm wraps, VF kept. -/
theorem test_addImm_wraps : nextIs (step ((((State.reset).setReg 10 0xFF).setReg 15 0x55).withFetchWord 16 0x7A01)) (fun t => t.reg 10 == 0 && t.reg 15 == 0x55 && t.pc == 0x202 && t.outcome == .ok && t.redraw == false && t.beep == false) = true := by
  decide

/-- 2.3 ADD imm to VF. -/
theorem test_addImm_vf : nextIs (step (((State.reset).setReg 15 1).withFetchWord 16 0x7F01)) (fun t => t.reg 15 == 2 && t.pc == 0x202 && t.outcome == .ok && t.redraw == false && t.beep == false) = true := by
  decide

/-- 2.3 LD reg. -/
theorem test_ldReg : nextIs (step (((State.reset).setReg 2 0x99).withFetchWord 16 0x8120)) (fun t => t.reg 1 == 0x99 && t.pc == 0x202 && t.outcome == .ok && t.redraw == false && t.beep == false) = true := by
  decide

/-- 2.3 OR leaves VF. -/
theorem test_or_keeps_vf : nextIs (step (((((State.reset).setReg 1 0xF0).setReg 2 0x0F).setReg 15 7).withFetchWord 16 0x8121)) (fun t => t.reg 1 == 0xFF && t.reg 15 == 7 && t.pc == 0x202 && t.outcome == .ok && t.redraw == false && t.beep == false) = true := by
  decide

/-- 2.3 AND. -/
theorem test_and : nextIs (step ((((State.reset).setReg 1 0xF0).setReg 2 0x3C).withFetchWord 16 0x8122)) (fun t => t.reg 1 == 0x30 && t.pc == 0x202 && t.outcome == .ok && t.redraw == false && t.beep == false) = true := by
  decide

/-- 2.3 XOR. -/
theorem test_xor : nextIs (step ((((State.reset).setReg 1 0xFF).setReg 2 0x0F).withFetchWord 16 0x8123)) (fun t => t.reg 1 == 0xF0 && t.pc == 0x202 && t.outcome == .ok && t.redraw == false && t.beep == false) = true := by
  decide

/-- E2: 250 + 10. -/
theorem test_add_carry : nextIs (step ((((State.reset).setReg 1 250).setReg 2 10).withFetchWord 16 0x8124)) (fun t => t.reg 1 == 4 && t.reg 15 == 1 && t.pc == 0x202 && t.outcome == .ok && t.redraw == false && t.beep == false) = true := by
  decide

/-- 2.3 ADD, X = F. -/
theorem test_add_into_vf : nextIs (step ((((State.reset).setReg 15 0xFF).setReg 1 1).withFetchWord 16 0x8F14)) (fun t => t.reg 15 == 2 && t.pc == 0x202 && t.outcome == .ok && t.redraw == false && t.beep == false) = true := by
  decide

/-- E3: 5 - 10. -/
theorem test_sub_borrow : nextIs (step ((((State.reset).setReg 1 5).setReg 2 10).withFetchWord 16 0x8125)) (fun t => t.reg 1 == 251 && t.reg 15 == 0 && t.pc == 0x202 && t.outcome == .ok && t.redraw == false && t.beep == false) = true := by
  decide

/-- 2.3 SUB, X = F. -/
theorem test_sub_into_vf : nextIs (step ((((State.reset).setReg 15 0x10).setReg 1 1).withFetchWord 16 0x8F15)) (fun t => t.reg 15 == 0 && t.pc == 0x202 && t.outcome == .ok && t.redraw == false && t.beep == false) = true := by
  decide

/-- 2.3 SHR ignores Y. -/
theorem test_shr_ignores_y : nextIs (step ((((State.reset).setReg 1 4).setReg 10 0xFF).withFetchWord 16 0x81A6)) (fun t => t.reg 1 == 2 && t.reg 15 == 0 && t.reg 10 == 0xFF && t.pc == 0x202 && t.outcome == .ok && t.redraw == false && t.beep == false) = true := by
  decide

/-- 2.3 SHR odd. -/
theorem test_shr_odd : nextIs (step (((State.reset).setReg 1 5).withFetchWord 16 0x8106)) (fun t => t.reg 1 == 2 && t.reg 15 == 1 && t.pc == 0x202 && t.outcome == .ok && t.redraw == false && t.beep == false) = true := by
  decide

/-- 2.3 SUBN borrow. -/
theorem test_subn_borrow : nextIs (step ((((State.reset).setReg 1 10).setReg 2 5).withFetchWord 16 0x8127)) (fun t => t.reg 1 == 0xFB && t.reg 15 == 0 && t.pc == 0x202 && t.outcome == .ok && t.redraw == false && t.beep == false) = true := by
  decide

/-- 2.3 SUBN no borrow. -/
theorem test_subn_no_borrow : nextIs (step ((((State.reset).setReg 1 5).setReg 2 10).withFetchWord 16 0x8127)) (fun t => t.reg 1 == 5 && t.reg 15 == 1 && t.pc == 0x202 && t.outcome == .ok && t.redraw == false && t.beep == false) = true := by
  decide

/-- 2.3 SHL, bit 7 set. -/
theorem test_shl_raw_flag : nextIs (step (((State.reset).setReg 1 0x81).withFetchWord 16 0x810E)) (fun t => t.reg 1 == 2 && t.reg 15 == 0x80 && t.pc == 0x202 && t.outcome == .ok && t.redraw == false && t.beep == false) = true := by
  decide

/-- 2.3 SHL, X = F. -/
theorem test_shl_into_vf : nextIs (step (((State.reset).setReg 15 0xC0).withFetchWord 16 0x8F0E)) (fun t => t.reg 15 == 0 && t.pc == 0x202 && t.outcome == .ok && t.redraw == false && t.beep == false) = true := by
  decide

/-- 2.3 RND with rnd = 0xB6. -/
theorem test_rnd : nextIs (step (({ State.reset with rndIn := some 0xB6 }).withFetchWord 16 0xC30F)) (fun t => t.reg 3 == 6 && t.pc == 0x202 && t.outcome == .ok && t.redraw == false && t.beep == false) = true := by
  decide

/-- 2.3 RND, NN = 0xFF. -/
theorem test_rnd_all_ones : nextIs (step (({ State.reset with rndIn := some 0xB6 }).withFetchWord 16 0xC3FF)) (fun t => t.reg 3 == 0xB6 && t.pc == 0x202 && t.outcome == .ok && t.redraw == false && t.beep == false) = true := by
  decide

/-- 2.4 LD I. -/
theorem test_ldI : nextIs (step ((State.reset).withFetchWord 16 0xA123)) (fun t => t.i == 0x123 && t.pc == 0x202 && t.outcome == .ok && t.redraw == false && t.beep == false) = true := by
  decide

/-- 2.4 ADD I, no overflow past 0xFFF. -/
theorem test_addI_no_flag_past_fff : nextIs (step (({ (State.reset).setReg 1 1 with i := 0xFFF }).withFetchWord 16 0xF11E)) (fun t => t.i == 0x1000 && t.reg 15 == 0 && t.pc == 0x202 && t.outcome == .ok && t.redraw == false && t.beep == false) = true := by
  decide

/-- 2.4 ADD I, 16-bit overflow. -/
theorem test_addI_overflow : nextIs (step (({ (State.reset).setReg 1 2 with i := 0xFFFF }).withFetchWord 16 0xF11E)) (fun t => t.i == 1 && t.reg 15 == 1 && t.pc == 0x202 && t.outcome == .ok && t.redraw == false && t.beep == false) = true := by
  decide

/-- 2.4 LD F, not masked. -/
theorem test_ldF_not_masked : nextIs (step (((State.reset).setReg 1 0xFF).withFetchWord 16 0xF129)) (fun t => t.i == 0x4FB && t.pc == 0x202 && t.outcome == .ok && t.redraw == false && t.beep == false) = true := by
  decide

/-- 2.4 BCD, last bytes of memory. -/
theorem test_ldB_last_bytes : nextIs (step (({ (State.reset).setReg 1 42 with i := 0xFFD }).withFetchWord 16 0xF133)) (fun t => t.mem.byteAt 0xFFD == 0 && t.mem.byteAt 0xFFE == 4 && t.mem.byteAt 0xFFF == 2 && t.pc == 0x202 && t.outcome == .ok && t.redraw == false && t.beep == false) = true := by
  decide

/-- 2.4 BCD beyond memory. -/
theorem test_ldB_beyond : nextIs (step (({ (State.reset).setReg 1 42 with i := 0xFFE }).withFetchWord 16 0xF133)) (fun t => t.outcome == .outOfBounds .memory 4096 && t.mem.byteAt 0xFFE == 0 && t.pc == 0x200 && t.redraw == false) = true := by
  decide

/-- 2.4 STORE V0..V2. -/
theorem test_store_three : nextIs (step (({ ((((State.reset).setReg 0 1).setReg 1 2).setReg 2 3).setReg 3 4 with i := 0x300 }).withFetchWord 16 0xF255)) (fun t => t.mem.byteAt 0x300 == 1 && t.mem.byteAt 0x302 == 3 && t.mem.byteAt 0x303 == 0 && t.i == 0x300 && t.pc == 0x202 && t.outcome == .ok && t.redraw == false && t.beep == false) = true := by
  decide

/-- 2.4 STORE V0..VF one byte too far. -/
theorem test_store_too_far : nextIs (step (({ State.reset with i := 0xFF1 }).withFetchWord 16 0xFF55)) (fun t => t.outcome == .outOfBounds .memory 4096 && t.pc == 0x200 && t.redraw == false) = true := by
  decide

/-- 2.4 LOAD V0..V1. -/
theorem test_load_two : nextIs (step (({ (State.reset).setReg 2 0x77 with i := 0x300, mem := [(0x300, 0xAA), (0x301, 0xBB), (0x302, 0xCC)] }).withFetchWord 16 0xF165)) (fun t => t.reg 0 == 0xAA && t.reg 1 == 0xBB && t.reg 2 == 0x77 && t.pc == 0x202 && t.outcome == .ok && t.redraw == false && t.beep == false) = true := by
  decide

/-- 2.4 LOAD at I = 0x1005. -/
theorem test_load_reports_i : nextIs (step (({ State.reset with i := 0x1005 }).withFetchWord 16 0xF065)) (fun t => t.outcome == .outOfBounds .memory 0x1005 && t.pc == 0x200 && t.redraw == false) = true := by
  decide

/-- 2.5 DRW, collision not reset by a later row. -/
theorem test_drw_no_reset_of_collision : nextIs (step (({ State.reset with i := 0x300, mem := [(0x300, 0x80), (0x301, 0x40)], fb := setPixel State.reset.fb 0 0 true }).withFetchWord 16 0xD012)) (fun t => pixel t.fb 0 0 == false && pixel t.fb 1 1 && t.reg 15 == 1 && t.redraw && t.pc == 0x202) = true := by
  decide

/-- 2.5 DRW reading beyond memory, rows clipped. -/
theorem test_drw_clipped_rows_fault : nextIs (step (({ ((State.reset).setReg 1 31).setReg 15 1 with i := 0xFFF }).withFetchWord 16 0xD012)) (fun t => t.outcome == .outOfBounds .memory 4096 && t.reg 15 == 1 && t.pc == 0x200 && t.redraw == false) = true := by
  decide

/-- 2.6 SKP pressed. -/
theorem test_skp_pressed : nextIs (step (({ (State.reset).setReg 1 5 with keys := State.reset.keys.set 5 true }).withFetchWord 16 0xE19E)) (fun t => t.pc == 0x204) = true := by
  decide

/-- 2.6 SKP with key index 16; the tick runs (2.7). -/
theorem test_skp_index_16 : nextIs (step (({ (State.reset).setReg 1 16 with dt := 1 }).withFetchWord 16 0xE19E)) (fun t => t.outcome == .outOfBounds .keypad 16 && t.dt == 0 && t.pc == 0x200 && t.redraw == false) = true := by
  decide

/-- 2.6 SKNP not pressed. -/
theorem test_sknp_not_pressed : nextIs (step (((State.reset).setReg 1 5).withFetchWord 16 0xE1A1)) (fun t => t.pc == 0x204) = true := by
  decide

/-- 2.6 SKNP pressed. -/
theorem test_sknp_pressed : nextIs (step (({ (State.reset).setReg 1 5 with keys := State.reset.keys.set 5 true }).withFetchWord 16 0xE1A1)) (fun t => t.pc == 0x202) = true := by
  decide

/-- 2.6 LD Vx, DT. -/
theorem test_ldVDt : nextIs (step (({ State.reset with dt := 7 }).withFetchWord 16 0xF307)) (fun t => t.reg 3 == 7 && t.dt == 6) = true := by
  decide

/-- 2.6 FX0A entry: no tick, PC kept. -/
theorem test_ldVK_entry : nextIs (step (({ State.reset with dt := 4, st := 4 }).withFetchWord 16 0xF20A)) (fun t => t.outcome == .suspended && t.waiting == some 2 && t.edge == none && t.pc == 0x200 && t.dt == 4 && t.st == 4) = true := by
  decide

/-- 2.6 LD DT, Vx. -/
theorem test_ldDtV : nextIs (step (((State.reset).setReg 0 3).withFetchWord 16 0xF015)) (fun t => t.dt == 2) = true := by
  decide

/-- 2.6 LD ST, Vx with 1. -/
theorem test_ldStV_beeps : nextIs (step (((State.reset).setReg 4 1).withFetchWord 16 0xF418)) (fun t => t.st == 0 && t.beep) = true := by
  decide

/-- 2.7 invalid word, with a tick. -/
theorem test_invalid_ticks : nextIs (step (({ State.reset with dt := 3, st := 1 }).withFetchWord 16 0xFFFF)) (fun t => t.outcome == .invalidOpcode 0xFFFF && t.dt == 2 && t.st == 0 && t.beep && t.pc == 0x200 && t.redraw == false) = true := by
  decide

/-! ### The cycle, the host and the key wait (2.6, 2.7, 2.8) -/

/-- 2.2 CALL with a full stack, under the policy the vector names. -/
theorem test_call_full_stack :
    nextIs (callWith .fault 0x300 { State.reset with sp := 16 })
      (fun t => t.outcome == .stackOverflow && t.pc == 0x200 && t.sp == 16) = true := by
  decide

/-- 2.7 fetch at 0xFFF. -/
theorem test_fetch_at_FFF :
    nextIs (step { State.reset with pc := 0xFFF }) (fun t => t.outcome == .outOfBounds .memory 4096) = true := by
  decide

/-- 2.7 fetch at an odd PC. -/
theorem test_fetch_odd :
    nextIs (step { State.reset with pc := 0x201, mem := [(0x201, 0x60), (0x202, 0x07)] })
      (fun t => t.reg 0 == 7 && t.pc == 0x203) = true := by
  decide

/-- 2.6 completion. -/
theorem test_key_wait_completes :
    nextIs (step { State.reset with waiting := some 2, edge := some 3, dt := 4, st := 4 })
      (fun t => t.reg 2 == 3 && t.pc == 0x202 && t.waiting == none && t.edge == none && t.dt == 3 && t.st == 3) = true := by
  decide

/-- 2.6 hold: no transition exists. -/
theorem test_key_wait_holds : (step { State.reset with waiting := some 2 }) = .fault .keyWaitHold := rfl

/-- 2.6 second edge ignored: setKey(3, 1), then setKey(7, 1), during a wait. -/
theorem test_first_edge_wins :
    (({ State.reset with waiting := some 2 }.setKey 3 true).setKey 7 true).edge = some 3 := by
  decide

/-- 2.6 quit during the wait: no step exists afterwards. -/
theorem test_quit_during_wait :
    step ({ State.reset with waiting := some 2 }.requestQuit) = .fault .quitHalt := rfl

/-- 2.8 too large: a program of 3585 bytes. -/
theorem test_program_too_large (bs : List Byte) (h : bs.length = 3585) :
    (State.reset.loadProgram bs).1 = .programTooLarge 3585 := by
  simp [State.loadProgram, h]

/-- 2.8 reload over a longer program. -/
theorem test_reload_overlays :
    (((State.reset.loadProgram [1, 2, 3, 4]).2.loadProgram [9]).2.mem.bytesAt 0x200 4) = [9, 2, 3, 4] := by
  decide

/-- 2.8 glyph address: MEM[0x04B..0x04F] with the default FONT. -/
theorem test_font_glyph_F (h : font = defaultFont) :
    State.reset.mem.bytesAt 0x04B 5 = [0xF0, 0x80, 0xF0, 0x80, 0x80] := by
  have e : State.reset.mem = [] := rfl
  simp only [e, Memory.bytesAt, Memory.byteAt, Memory.unlisted, h]
  decide

/-- R292: the first and the last glyph of the default, at 5 times the digit, and 0 above the font. -/
theorem test_default_font :
    (List.range 5).map (fun k => resetContents defaultFont (0x000 + k)) = [0xF0, 0x90, 0x90, 0x90, 0xF0] ∧
      (List.range 5).map (fun k => resetContents defaultFont (0x04B + k)) = [0xF0, 0x80, 0xF0, 0x80, 0x80] ∧
      resetContents defaultFont 0x50 = 0 := by
  decide

/-- R295: a step before the first initialize is refused. -/
theorem test_step_before_initialize : hostAct (.step 0) none = .refused .notInitialised := rfl

/-! ### Witnesses: for each statement with hypotheses, states and operands that meet them all together -/

theorem next_of_nextIs {r : Result} {p : State → Bool} (h : nextIs r p = true) : ∃ t, r = .next t ∧ p t = true := by
  cases r with
  | next t => exact ⟨t, rfl, h⟩
  | fault _ => cases h
  | refused _ => cases h

/-- The reset state with one word at PC. -/
def fetching (w : Nat) : State := State.reset.withFetchWord 16 w

/-- The field hypotheses of DispatchFollowsTheClassTables for one word. -/
abbrev FieldsAre (w : Word) (c n k : Nat) (x y : Reg) (nn : Byte) (nnn : BitVec 12) (n4 : BitVec 4) : Prop :=
  c = w.toNat / 4096 ∧ n = w.toNat % 16 ∧ k = w.toNat % 256 ∧ x.val = w.toNat / 256 % 16 ∧
  y.val = w.toNat / 16 % 16 ∧ nn.toNat = k ∧ nnn.toNat = w.toNat % 4096 ∧ n4.toNat = n

theorem test_witness_DecodeOfEncodeIsTheInstruction :
    (Instr.sys 0x0E1).wellFormed = true ∧ (Instr.drw 15 15 15).wellFormed = true ∧
      (Instr.loadRegs 15).wellFormed = true := by decide

theorem test_witness_EncodeOfDecodeIsTheWord :
    dispatch 0x0000 = some (.sys 0) ∧ dispatch 0x00EF = some (.sys 0x0EF) ∧ dispatch 0xFF65 = some (.loadRegs 15) := by
  decide

theorem test_witness_RowsSelectExactlyTheInstructions :
    ((0 : Fin 35) < 2 ∧ (0x00E0 : Word) &&& (opcodeRows.get ((0 : Fin 35).cast rfl)).1 = (opcodeRows.get ((0 : Fin 35).cast rfl)).2 ∧
      (0x00E0 : Word) &&& (opcodeRows.get ((2 : Fin 35).cast rfl)).1 = (opcodeRows.get ((2 : Fin 35).cast rfl)).2) ∧
    ((1 : Fin 35) < 2 ∧ (0x00EE : Word) &&& (opcodeRows.get ((1 : Fin 35).cast rfl)).1 = (opcodeRows.get ((1 : Fin 35).cast rfl)).2 ∧
      (0x00EE : Word) &&& (opcodeRows.get ((2 : Fin 35).cast rfl)).1 = (opcodeRows.get ((2 : Fin 35).cast rfl)).2) := by
  decide

theorem test_witness_DispatchFollowsTheClassTables_low :
    FieldsAre 0x00E0 0 0 0xE0 0 0xE 0xE0 0x0E0 0 ∧ FieldsAre 0x0FFF 0 15 255 15 15 0xFF 0xFFF 15 ∧
    FieldsAre 0x1FFF 1 15 255 15 15 0xFF 0xFFF 15 ∧ FieldsAre 0x2000 2 0 0 0 0 0 0 0 ∧
    FieldsAre 0x3FFF 3 15 255 15 15 0xFF 0xFFF 15 ∧ FieldsAre 0x4000 4 0 0 0 0 0 0 0 ∧
    FieldsAre 0x5FF0 5 0 0xF0 15 15 0xF0 0xFF0 0 ∧ FieldsAre 0x5001 5 1 1 0 0 1 1 1 ∧
    FieldsAre 0x6FFF 6 15 255 15 15 0xFF 0xFFF 15 ∧ FieldsAre 0x7000 7 0 0 0 0 0 0 0 :=
  ⟨by decide, by decide, by decide, by decide, by decide, by decide, by decide, by decide, by decide, by decide⟩

theorem test_witness_DispatchFollowsTheClassTables_high :
    FieldsAre 0x8FFE 8 14 0xFE 15 15 0xFE 0xFFE 14 ∧ FieldsAre 0x8008 8 8 8 0 0 8 8 8 ∧
    FieldsAre 0x9FF0 9 0 0xF0 15 15 0xF0 0xFF0 0 ∧ FieldsAre 0x900F 9 15 15 0 0 15 15 15 ∧
    FieldsAre 0xAFFF 10 15 255 15 15 0xFF 0xFFF 15 ∧ FieldsAre 0xB000 11 0 0 0 0 0 0 0 ∧
    FieldsAre 0xCFFF 12 15 255 15 15 0xFF 0xFFF 15 ∧ FieldsAre 0xD000 13 0 0 0 0 0 0 0 ∧
    FieldsAre 0xEF9E 14 14 0x9E 15 9 0x9E 0xF9E 14 ∧ FieldsAre 0xE0A1 14 1 0xA1 0 10 0xA1 0x0A1 1 ∧
    FieldsAre 0xE09F 14 15 0x9F 0 9 0x9F 0x09F 15 ∧ FieldsAre 0xFF65 15 5 0x65 15 6 0x65 0xF65 5 ∧
    FieldsAre 0xF000 15 0 0 0 0 0 0 0 :=
  ⟨by decide, by decide, by decide, by decide, by decide, by decide, by decide, by decide, by decide, by decide, by decide, by decide, by decide⟩

theorem test_witness_BytePortsReadAndWriteOneByte :
    4095 < 4096 ∧ Memory.read [] 4096 = .error 4096 ∧ Memory.write [] 4096 7 = .error 4096 ∧
    4095 ≤ 4095 ∧ Memory.read [(4095, 7)] 4095 = .ok 7 ∧ Memory.write [] 4095 7 = .ok [(4095, 7)] := by
  decide

theorem test_witness_BlocksAreAccessedWholeOrNotAtAll :
    (0 < [(1 : Byte), 2].length ∧ 4095 < 4095 + [(1 : Byte), 2].length - 1 ∧
      Memory.writeBlock [] 4095 [1, 2] = .error 4096) ∧
    (0 < [(1 : Byte)].length ∧ 4095 < 5000 + [(1 : Byte)].length - 1 ∧ Memory.readBlock [] 5000 1 = .error 5000) ∧
    (0 < [(1 : Byte), 2].length ∧ 4094 + [(1 : Byte), 2].length - 1 ≤ 4095 ∧
      Memory.writeBlock [] 4094 [1, 2] = .ok [(4094, 1), (4095, 2)]) := by
  decide

theorem test_witness_FetchIsBigEndian : 4094 + 1 ≤ 4095 ∧ Memory.fetch [(4094, 0x12), (4095, 0x34)] 4094 = .ok 0x1234 := by
  decide

theorem test_witness_AStoredWordIsTheWordFetchedNext :
    (1 ≤ (1 : Reg).val ∧ ({ State.reset with i := 0xFFE } : State).i.toNat + (1 : Reg).val ≤ 4095) ∧
    (1 ≤ (15 : Reg).val ∧ ({ State.reset with i := 0 } : State).i.toNat + (15 : Reg).val ≤ 4095) := by
  decide

/-! The step. -/

theorem test_witness_StepRunsTheDecodedInstruction_sys :
    RunsNext (.sys 0) State.reset ∧ ∃ t, exec (.sys 0) State.reset = .next t ∧ (t.pc == 0x202) = true :=
  ⟨⟨rfl, rfl, by decide, by decide⟩, next_of_nextIs (by decide)⟩

theorem test_witness_StepRunsTheDecodedInstruction_suspended :
    RunsNext (.ldVK 2) (fetching 0xF20A) ∧
      ∃ t, exec (.ldVK 2) (fetching 0xF20A) = .next t ∧ (t.outcome == .suspended) = true :=
  ⟨⟨rfl, rfl, by decide, by decide⟩, next_of_nextIs (by decide)⟩

theorem test_witness_AnInvalidWordIsReportedAndChangesNothing :
    let s : State := { State.reset with pc := 4094, mem := [(4094, 0x51), (4095, 0x21)] }
    s.quit = false ∧ s.waiting = none ∧ s.pc.toNat + 1 ≤ 4095 ∧
      0x5121 = wordOfBytes (s.mem.byteAt s.pc.toNat) (s.mem.byteAt (s.pc.toNat + 1)) ∧ dispatch 0x5121 = none :=
  ⟨rfl, rfl, by decide, by decide, by decide⟩

theorem test_witness_AFetchBeyondMemoryIsReported_straddling :
    let s : State := { State.reset with pc := 4095 }
    s.quit = false ∧ s.waiting = none ∧ 4095 < s.pc.toNat + 1 := ⟨rfl, rfl, by decide⟩

theorem test_witness_AFetchBeyondMemoryIsReported_beyond :
    let s : State := { State.reset with pc := 0xFFFF }
    s.quit = false ∧ s.waiting = none ∧ 4095 < s.pc.toNat + 1 := ⟨rfl, rfl, by decide⟩

theorem test_witness_AQuitCoreHasNoTransition :
    ({ State.reset with quit := true, waiting := some 1, edge := some 2 } : State).quit = true := rfl

theorem test_witness_AWaitingCoreHoldsOrCompletes_hold :
    let s : State := { State.reset with waiting := some 0 }
    s.quit = false ∧ s.waiting = some 0 ∧ s.edge = none := by decide

theorem test_witness_AWaitingCoreHoldsOrCompletes_edge :
    let s : State := { State.reset with waiting := some 15, edge := some 15 }
    s.quit = false ∧ s.waiting = some 15 ∧ s.edge = some 15 := by decide

theorem test_witness_AStepThatErrsChangesOnlyTheTick_fetch :
    ∃ t, step { State.reset with pc := 4095, st := 1 } = .next t ∧ t.outcome.isError = true :=
  next_of_nextIs (p := fun t => t.outcome.isError) (by decide)

theorem test_witness_AStepThatErrsChangesOnlyTheTick_word :
    ∃ t, step (fetching 0xFFFF) = .next t ∧ t.outcome.isError = true :=
  next_of_nextIs (p := fun t => t.outcome.isError) (by decide)

theorem test_witness_AStepThatErrsChangesOnlyTheTick_block :
    ∃ t, step ({ State.reset with i := 0xFFE }.withFetchWord 16 0xF033) = .next t ∧ t.outcome.isError = true :=
  next_of_nextIs (p := fun t => t.outcome.isError) (by decide)

theorem test_witness_AStepThatErrsChangesOnlyTheTick_key :
    ∃ t, step ((State.reset.setReg 1 16).withFetchWord 16 0xE19E) = .next t ∧ t.outcome.isError = true :=
  next_of_nextIs (p := fun t => t.outcome.isError) (by decide)

theorem test_witness_EveryStepTicksTheTimersOnce :
    RunsNext .cls (fetching 0x00E0) ∧
      (∀ x : Reg, (Instr.cls ≠ .ldDtV x) ∧ (Instr.cls ≠ .ldStV x) ∧ (Instr.cls ≠ .ldVK x)) ∧
      ¬IsOverflowingCall .cls (fetching 0x00E0) ∧ ∃ t, step (fetching 0x00E0) = .next t ∧ (t.pc == 0x202) = true :=
  ⟨⟨rfl, rfl, by decide, by decide⟩, by decide, (by rintro ⟨_, _, h⟩; cases h), next_of_nextIs (by decide)⟩

theorem test_witness_RedrawExactlyAfterADrawingStep_drawing :
    RunsNext (.drw 0 0 0) (fetching 0xD000) ∧ ∃ t, step (fetching 0xD000) = .next t ∧ t.redraw = true :=
  ⟨⟨rfl, rfl, by decide, by decide⟩, next_of_nextIs (p := fun t => t.redraw) (by decide)⟩

theorem test_witness_RedrawExactlyAfterADrawingStep_other :
    ∃ t, step State.reset = .next t ∧ (!t.redraw) = true :=
  next_of_nextIs (p := fun t => !t.redraw) (by decide)

theorem test_witness_OnlyRndReadsTheRandomByte : ∀ x nn, ¬RunsNext (.rnd x nn) State.reset := by
  rintro x nn ⟨_, _, _, h⟩
  have e : dispatch (wordOfBytes (State.reset.mem.byteAt State.reset.pc.toNat)
      (State.reset.mem.byteAt (State.reset.pc.toNat + 1))) = some (.sys 0) := by decide
  rw [e] at h
  cases h

/-! Invariants. -/

theorem test_witness_EveryStepKeepsAStateLegal :
    State.reset.legal ∧ ∃ t, step State.reset = .next t ∧ (t.pc == 0x202) = true :=
  ⟨by decide, next_of_nextIs (by decide)⟩

theorem test_witness_EveryStepKeepsAStateLegal_edge :
    let s : State := { State.reset with waiting := some 3, edge := some 4, mem := [(0x50, 1), (4095, 2)] }
    s.legal ∧ ∃ t, step s = .next t ∧ (t.edge == none) = true :=
  ⟨by decide, next_of_nextIs (by decide)⟩

theorem test_witness_EveryHostActionKeepsAStateLegal :
    (∀ s, (none : Session) = some s → s.legal) ∧ (∀ s, some State.reset = some s → s.legal) ∧
      hostAct .reinit none = .next (State.reset, .nothing) ∧
      hostAct (.setKey 15 true) (some State.reset) = .next (State.reset.setKey 15 true, .nothing) :=
  ⟨fun _ h => (by cases h), fun _ h => (by cases h; decide), rfl, rfl⟩

/-- No CALL is next where the word at PC is not a CALL. -/
theorem not_overflowing_reset : ¬StepIsOverflowingCall State.reset := by
  rintro ⟨nnn, _, h⟩
  cases h

theorem test_witness_PcStaysBounded :
    PcBounded State.reset ∧ ¬StepIsOverflowingCall State.reset ∧
      ∃ t, step State.reset = .next t ∧ (t.pc == 0x202) = true :=
  ⟨⟨by decide, by decide, fun h => absurd rfl h⟩, not_overflowing_reset, next_of_nextIs (by decide)⟩

theorem test_witness_PcStaysBounded_limit :
    let s : State := { State.reset with pc := 8444 }
    PcBounded s ∧ ¬StepIsOverflowingCall s ∧ ∃ t, step s = .next t ∧ (t.pc == 8444) = true :=
  ⟨⟨by decide, by decide, fun h => absurd rfl h⟩, (by rintro ⟨_, _, h⟩; cases h), next_of_nextIs (by decide)⟩

theorem test_witness_NoStepWritesKeysOrQuit :
    ¬StepIsOverflowingCall State.reset ∧ ∃ t, step State.reset = .next t ∧ (t.pc == 0x202) = true :=
  ⟨not_overflowing_reset, next_of_nextIs (by decide)⟩

/-- A jump meets the condition of every clause but the second at once. -/
theorem test_witness_EachPieceOfStateHasItsWriters :
    ¬IsOverflowingCall (.jp 0) State.reset ∧ (∃ t, exec (.jp 0) State.reset = .next t ∧ (t.pc == 0) = true) ∧
      (∀ r, ¬MayWriteRegister (.jp 0) r) ∧
      (∀ x : Reg, Instr.jp 0 ≠ .ldB x ∧ Instr.jp 0 ≠ .storeRegs x ∧ Instr.jp 0 ≠ .addI x ∧ Instr.jp 0 ≠ .ldF x ∧
        Instr.jp 0 ≠ .ldDtV x ∧ Instr.jp 0 ≠ .ldStV x ∧ Instr.jp 0 ≠ .ldVK x) ∧
      Instr.jp 0 ≠ .cls ∧ (∀ x y n, Instr.jp 0 ≠ .drw x y n) ∧ Instr.jp 0 ≠ .ret ∧
      ∀ nnn, Instr.jp 0 ≠ .call nnn ∧ Instr.jp 0 ≠ .ldI nnn := by
  refine ⟨?_, next_of_nextIs (by decide), fun _ h => h, by decide, ?_, ?_, ?_, ?_⟩
  · rintro ⟨_, _, h⟩; cases h
  all_goals intros
  all_goals simp

/-- An instruction that does not complete, for the clause on PC; and registers outside the writers at their bounds. -/
theorem test_witness_EachPieceOfStateHasItsWriters_pc :
    ¬IsOverflowingCall (.loadRegs 14) { State.reset with i := 0xFF2 } ∧
      (∃ t, exec (.loadRegs 14) { State.reset with i := 0xFF2 } = .next t ∧ (t.outcome != .ok) = true) ∧
      ¬MayWriteRegister (.loadRegs 14) 15 ∧ ¬MayWriteRegister (.addReg 14 13) 13 ∧
      ¬MayWriteRegister (.drw 0 1 15) 0 := by
  refine ⟨?_, next_of_nextIs (by decide), ?_, ?_, ?_⟩
  · rintro ⟨_, _, h⟩; cases h
  · show ¬((15 : Reg) ≤ 14); decide
  · show ¬((13 : Reg) = 14 ∨ (13 : Reg) = VF); decide
  · show ¬((0 : Reg) = VF); decide

theorem test_witness_EachPieceOfStateHasItsWriters_call :
    ¬IsOverflowingCall (.call 0) { State.reset with sp := 15 } := by
  rintro ⟨h, _⟩
  cases h

/-! Control transfer. -/

theorem test_witness_NoOpsOnlyAdvancePc : State.reset.sp.val = 0 := rfl

theorem test_witness_ReturnPopsTheCallStack :
    ({ State.reset with sp := 1 } : State).sp.val = (0 : Fin 16).val + 1 ∧
    ({ State.reset with sp := 16 } : State).sp.val = (15 : Fin 16).val + 1 := by decide

theorem test_witness_CallPushesTheReturnAddress :
    State.reset.sp.val = (0 : Fin 16).val ∧ ({ State.reset with sp := 15 } : State).sp.val = (15 : Fin 16).val := by
  decide

theorem test_witness_AnOverflowingCallFollowsThePolicy :
    ({ State.reset with sp := 16 } : State).sp.val = 16 ∧ ∀ (_n : BitVec 12) (u : State), State.legal u → State.legal (id u) :=
  ⟨rfl, fun _ _ h => h⟩

theorem test_witness_CallThenReturnComesBack :
    let s : State := { State.reset with sp := 15 }
    s.sp.val < 16 ∧ ∃ t, exec (.call 0x300) s = .next t ∧ (t.sp == 16 && t.pc == 0x300) = true :=
  ⟨by decide, next_of_nextIs (by decide)⟩

/-- Each skip's condition holds in one state and fails in another. -/
theorem test_witness_RegisterSkipsFollowTheirConditions :
    let s := State.reset.setReg 1 255
    s.reg 1 = 255 ∧ ¬s.reg 1 = 0 ∧ s.reg 1 ≠ 0 ∧ ¬s.reg 1 ≠ 255 ∧ s.reg 1 = s.reg 1 ∧ ¬s.reg 1 = s.reg 2 ∧
      s.reg 1 ≠ s.reg 2 ∧ ¬s.reg 1 ≠ s.reg 1 := by
  decide

/-! Registers, index, memory. -/

theorem test_witness_FlagArithmeticWithoutVfOperands :
    (14 : Reg) ≠ VF ∧ (0 : Reg) ≠ VF ∧ ¬(15 : Reg) ≠ VF ∧
      255 = ((State.reset.setReg 14 255).reg 14).toNat ∧ 0 = ((State.reset.setReg 14 255).reg 0).toNat := by
  decide

theorem test_witness_FlagArithmeticWithVfOperands :
    let s := (State.reset.setReg 14 255).setReg VF 1
    (14 : Reg) ≠ VF ∧ (0 : Reg) ≠ VF ∧ 255 = (s.reg 14).toNat ∧ 0 = (s.reg 0).toNat ∧ 1 = (s.reg VF).toNat := by
  decide

theorem test_witness_RandomByteIsMaskedIntoTheRegister : RunsNext (.rnd 15 0xFF) (fetching 0xCFFF) :=
  ⟨rfl, rfl, by decide, by decide⟩

theorem test_witness_IndexAddSetsTheWideCarry :
    (let s : State := { State.reset.setReg 1 1 with i := 0xFFFF }
     1 = if 0xFFFF < s.i.toNat + (s.reg 1).toNat then 1 else 0) ∧
    (let s : State := { State.reset.setReg VF 1 with i := 0xFFFE }
     0 = if 0xFFFF < s.i.toNat + (s.reg VF).toNat then 1 else 0) := by
  decide

theorem test_witness_BcdWritesThreeDigits : ({ State.reset with i := 0xFFD } : State).i.toNat + 2 ≤ 4095 := by decide

theorem test_witness_BlockStoreWritesTheRegisters :
    ({ State.reset with i := 0xFF0 } : State).i.toNat + (15 : Reg).val ≤ 4095 ∧
    ({ State.reset with i := 0xFFF } : State).i.toNat + (0 : Reg).val ≤ 4095 := by decide

theorem test_witness_BlockLoadReadsTheRegisters :
    ({ State.reset with i := 0xFF0 } : State).i.toNat + (15 : Reg).val ≤ 4095 ∧
    ({ State.reset with i := 0xFFF } : State).i.toNat + (0 : Reg).val ≤ 4095 := by decide

theorem test_witness_BlocksBeyondMemoryAreReported :
    4095 < ({ State.reset with i := 0xFFE } : State).i.toNat + 2 ∧
    4095 < ({ State.reset with i := 0xFFFF } : State).i.toNat + 2 ∧
    4095 < ({ State.reset with i := 0xFF1 } : State).i.toNat + (15 : Reg).val ∧
    4095 < ({ State.reset with i := 0x1000 } : State).i.toNat + (0 : Reg).val ∧
    (0 < (2 : BitVec 4).toNat ∧ 4095 < ({ State.reset with i := 0xFFF } : State).i.toNat + (2 : BitVec 4).toNat - 1) ∧
    (0 < (1 : BitVec 4).toNat ∧ 4095 < ({ State.reset with i := 0x1000 } : State).i.toNat + (1 : BitVec 4).toNat - 1) :=
  ⟨by decide, by decide, by decide, by decide, ⟨by decide, by decide⟩, by decide, by decide⟩

/-! Display. -/

/-- A lit pixel at the last corner under a sprite's 1 bit: a collision. -/
theorem test_witness_CompositeFlipsTheSpriteAndReportsCollisions :
    63 < 64 ∧ 31 < 32 ∧ spriteBit 63 31 [0x80, 0xFF] 63 31 = true ∧
      pixel (setPixel State.reset.fb 63 31 true) 63 31 = true ∧
      (composite 63 31 [0x80, 0xFF] (setPixel State.reset.fb 63 31 true)).2 = true ∧
      (composite 63 31 [0x80, 0xFF] State.reset.fb).2 = false := by
  decide

theorem test_witness_DrawComposesTheSpriteAtI :
    (let s : State := { State.reset with i := 0xFFFF }
     ((0 : BitVec 4).toNat = 0 ∨ s.i.toNat + (0 : BitVec 4).toNat - 1 ≤ 4095) ∧
      [] = (List.range (0 : BitVec 4).toNat).map (fun r => s.mem.byteAt (s.i.toNat + r))) ∧
    (let s : State := { State.reset with i := 0xFFF, mem := [(0xFFF, 0x80)] }
     ((1 : BitVec 4).toNat = 0 ∨ s.i.toNat + (1 : BitVec 4).toNat - 1 ≤ 4095) ∧
      [0x80] = (List.range (1 : BitVec 4).toNat).map (fun r => s.mem.byteAt (s.i.toNat + r))) := by
  decide

/-- The log's case (entry 7): a sprite wholly on lit pixels does not collide on its second draw. -/
theorem test_witness_DrawingTwiceRestoresTheFramebuffer :
    (composite 0 0 [0x80] (composite 0 0 [0x80] (setPixel State.reset.fb 0 0 true)).1).2 = false ∧
      (composite 0 0 [0x80] (composite 0 0 [0x80] State.reset.fb).1).2 = true := by
  decide

/-! Keys, timers, host. -/

theorem test_witness_KeySkipsReadTheKey :
    ((State.reset.setReg 1 15).reg 1).toNat = (15 : Key).val ∧ ((State.reset.setReg 1 0).reg 1).toNat = (0 : Key).val ∧
      (State.reset.setKey 15 true).key 15 = true ∧ State.reset.key 15 = false := by
  decide

theorem test_witness_AKeyCodeAboveFifteenIsReported :
    15 < ((State.reset.setReg 1 16).reg 1).toNat ∧ 15 < ((State.reset.setReg 1 255).reg 1).toNat := by decide

theorem test_witness_ATimerWriteIsTickedInItsOwnStep :
    RunsNext (.ldVDt 15) (fetching 0xFF07) ∧ RunsNext (.ldDtV 15) (fetching 0xFF15) ∧
      RunsNext (.ldStV 15) (fetching 0xFF18) :=
  ⟨⟨rfl, rfl, by decide, by decide⟩, ⟨rfl, rfl, by decide, by decide⟩, ⟨rfl, rfl, by decide, by decide⟩⟩

theorem test_witness_KeyWaitEntrySuspendsWithoutATick : RunsNext (.ldVK 0) (fetching 0xF00A) :=
  ⟨rfl, rfl, by decide, by decide⟩

theorem test_witness_AKeyWaitEndsWithTheKeyReported :
    RunsNext (.ldVK 15) (fetching 0xFF0A) ∧ ∃ t, step (fetching 0xFF0A) = .next t ∧ (t.waiting == some 15) = true :=
  ⟨⟨rfl, rfl, by decide, by decide⟩, next_of_nextIs (by decide)⟩

theorem test_witness_SetKeyLatchesTheFirstPress :
    (let s : State := { State.reset with waiting := some 0 }
     true = true ∧ s.waiting.isSome = true ∧ s.edge = none) ∧
    (let s : State := { State.reset with waiting := some 0, edge := some 3 }
     ¬(true = true ∧ s.waiting.isSome = true ∧ s.edge = none)) ∧
    ¬(true = true ∧ State.reset.waiting.isSome = true ∧ State.reset.edge = none) := by
  decide

theorem test_witness_RequestQuitAbandonsTheWaitAndHalts :
    ({ State.reset with waiting := some 0, edge := some 3 } : State).waiting.isSome = true ∧ State.reset.waiting = none := by
  decide

theorem test_witness_LoadProgramPlacesTheBytesOrRefuses :
    (3584 < (List.replicate 3585 (0x12 : Byte)).length ∧ (List.replicate 3584 (0x12 : Byte)).length ≤ 3584) ∧
    ∀ bs, ∃ r t, (r, t) = State.reset.loadProgram bs :=
  ⟨by simp only [List.length_replicate]; decide, fun bs => ⟨(State.reset.loadProgram bs).1, _, Prod.mk.eta⟩⟩

theorem test_witness_HostActionsAnswerAsTheirRulesSay :
    HostAction.step 0 ≠ .reinit ∧ 15 < 16 ∧
      State.reset.loadProgram [0x12] = (.ok, { State.reset with mem := [(0x200, 0x12)] }) ∧
      (∃ t, coreStep 7 State.reset = .next t ∧ (t.pc == 0x202) = true) ∧
      ({ State.reset with quit := true } : State).quit = true :=
  ⟨by decide, by decide, by decide, next_of_nextIs (by decide), rfl⟩

theorem test_witness_HostActionsAnswerAsTheirRulesSay_held :
    let s : State := { State.reset with waiting := some 15 }
    s.quit = false ∧ s.waiting = some 15 ∧ s.edge = none := ⟨rfl, rfl, rfl⟩

theorem test_witness_JumpsSkipsAndLoadsChangeNothingElse :
    (∃ t, exec (.seImm 15 0) State.reset = .next t ∧ (t.pc == 0x204) = true) ∧
    (∃ t, exec (.addImm 15 255) State.reset = .next t ∧ (t.reg 15 == 255) = true) ∧
    (∃ t, exec (.ldI 0xFFF) State.reset = .next t ∧ (t.i == 0xFFF) = true) ∧
    Instr.seImm 15 0 ∈ [Instr.jp 0, .jpV0 0, .seImm 15 0, .sneImm 15 0, .seReg 15 0, .sneReg 15 0] ∧
    Instr.addImm 15 255 ∈ [Instr.ldImm 15 255, .addImm 15 255] ∧ Instr.ldI 0xFFF ∈ [Instr.ldI 0xFFF, .ldF 15] :=
  ⟨next_of_nextIs (by decide), next_of_nextIs (by decide), next_of_nextIs (by decide), by decide, by decide, by decide⟩

theorem test_witness_RegisterSkipsFollowTheirConditions_words :
    ((0x5FFF : Word).toNat / 4096 = 5 ∧ (0x5FFF : Word).toNat % 16 ≠ 0) ∧
    ((0x9001 : Word).toNat / 4096 = 9 ∧ (0x9001 : Word).toNat % 16 ≠ 0) := by
  decide


end Sys2Proof.Tests
end

section
/-! PROOFS. Memory (20_memory.md): what each byte port answers on either side of the last address, and from that and the laws of
the memory controller the obligations on the byte ports and the fetch. -/

namespace Sys2Proof.Machine

/-! ### The byte ports -/

/-- The read port inside memory (R62). -/
theorem Memory.read_ok {m : Memory} {a : Nat} (h : a ≤ 4095) : m.read a = .ok (m.byteAt a) :=
  if_pos (Nat.lt_succ_of_le h)

/-- The read port beyond memory (R62). -/
theorem Memory.read_error {m : Memory} {a : Nat} (h : 4095 < a) : m.read a = .error a :=
  if_neg (Nat.not_lt.mpr h)

/-- The write port inside memory (R63). -/
theorem Memory.write_ok {m : Memory} {a : Nat} {b : Byte} (h : a ≤ 4095) : m.write a b = .ok (m.put a b) :=
  if_pos (Nat.lt_succ_of_le h)

/-- The write port beyond memory (R63). -/
theorem Memory.write_error {m : Memory} {a : Nat} {b : Byte} (h : 4095 < a) : m.write a b = .error a :=
  if_neg (Nat.not_lt.mpr h)

/-! ### The obligations -/

/-- Settles O7: the ports' answers on either side of 4095; what an allowed write leaves at every address is the law of a read
after a write. -/
theorem bytePortsReadAndWriteOneByte : Obligations.BytePortsReadAndWriteOneByte := by
  intro m a b
  constructor
  · intro hbeyond
    exact ⟨Memory.read_error hbeyond, Memory.write_error hbeyond⟩
  · intro hinside
    exact ⟨Memory.read_ok hinside, m.put a b, Memory.write_ok hinside, fun c => Memory.byteAt_put m a c b⟩

/-- Settles O9: a fetch inside memory joins the two bytes, and the value of the joined word has the first byte as its high byte. -/
theorem fetchIsBigEndian : Obligations.FetchIsBigEndian := by
  intro m a hinside
  exact ⟨wordOfBytes (m.byteAt a) (m.byteAt (a + 1)), Memory.fetch_ok hinside, wordOfBytes_toNat _ _⟩

end Sys2Proof.Machine
end

section
/-! PROOFS. The encoding (30_encoding.md): the value of each decoder field, what each secondary table answers by the value of its
key field, and from those the obligations on the decoder's fields and on the dispatch. -/

namespace Sys2Proof

/-! ### The decoder's fields (R91) -/

@[simp] theorem decodeFields_cls_toNat (w : Word) : (decodeFields w).cls.toNat = w.toNat / 4096 := by
  have := w.isLt
  simp only [decodeFields, BitVec.extractLsb'_toNat, Nat.shiftRight_eq_div_pow]
  omega

@[simp] theorem decodeFields_address_toNat (w : Word) : (decodeFields w).address.toNat = w.toNat % 4096 :=
  BitVec.extractLsb'_toNat 0 12 w

@[simp] theorem decodeFields_regX_val (w : Word) : (decodeFields w).regX.val = w.toNat / 256 % 16 := by
  simp only [decodeFields, BitVec.val_toFin, BitVec.extractLsb'_toNat, Nat.shiftRight_eq_div_pow]

@[simp] theorem decodeFields_regY_val (w : Word) : (decodeFields w).regY.val = w.toNat / 16 % 16 := by
  simp only [decodeFields, BitVec.val_toFin, BitVec.extractLsb'_toNat, Nat.shiftRight_eq_div_pow]

@[simp] theorem decodeFields_imm8_toNat (w : Word) : (decodeFields w).imm8.toNat = w.toNat % 256 :=
  BitVec.extractLsb'_toNat 0 8 w

@[simp] theorem decodeFields_imm4_toNat (w : Word) : (decodeFields w).imm4.toNat = w.toNat % 16 :=
  BitVec.extractLsb'_toNat 0 4 w

/-- Settles O4: the value of each field, put together. -/
theorem decoderFieldsAreFixedSlices : Obligations.DecoderFieldsAreFixedSlices := fun w =>
  ⟨decodeFields_cls_toNat w, decodeFields_address_toNat w, decodeFields_regX_val w, decodeFields_regY_val w,
    decodeFields_imm8_toNat w, decodeFields_imm4_toNat w⟩

/-- The fields are determined by their values. -/
theorem decodeFields_eq {w : Word} {f : Fields} (hcls : f.cls.toNat = w.toNat / 4096)
    (haddress : f.address.toNat = w.toNat % 4096) (hregX : f.regX.val = w.toNat / 256 % 16)
    (hregY : f.regY.val = w.toNat / 16 % 16) (himm8 : f.imm8.toNat = w.toNat % 256)
    (himm4 : f.imm4.toNat = w.toNat % 16) : decodeFields w = f := by
  cases f with
  | mk cls address regX regY imm8 imm4 =>
    rw [← decodeFields_cls_toNat, BitVec.toNat_inj] at hcls
    rw [← decodeFields_address_toNat, BitVec.toNat_inj] at haddress
    rw [← decodeFields_regX_val, Fin.val_inj] at hregX
    rw [← decodeFields_regY_val, Fin.val_inj] at hregY
    rw [← decodeFields_imm8_toNat, BitVec.toNat_inj] at himm8
    rw [← decodeFields_imm4_toNat, BitVec.toNat_inj] at himm4
    subst hcls haddress hregX hregY himm8 himm4
    rfl

/-! ### The secondary tables by the value of their key field

Each table's proof has one case for each key it lists, and a last one where the key differs from all of them. -/

/-- Class 0 compares the full word (R96): a word of class 0 is one of the two fixed words exactly when its address is. -/
theorem dispatch0_eq {w : Word} {f : Fields} (hclass : w.toNat / 4096 = 0) (haddress : f.address.toNat = w.toNat % 4096) :
    dispatch0 f = if w = 0x00E0 then .cls else if w = 0x00EE then .ret else .sys f.address := by
  have hvalue : f.address.toNat = w.toNat := by omega
  simp only [dispatch0, ← BitVec.toNat_inj, hvalue]
  rfl

/-- Class 8 on the low nibble (R97). -/
theorem dispatch8_eq (f : Fields) :
    dispatch8 f =
      if f.imm4.toNat = 0 then some (.ldReg f.regX f.regY) else if f.imm4.toNat = 1 then some (.orReg f.regX f.regY)
      else if f.imm4.toNat = 2 then some (.andReg f.regX f.regY) else if f.imm4.toNat = 3 then some (.xorReg f.regX f.regY)
      else if f.imm4.toNat = 4 then some (.addReg f.regX f.regY) else if f.imm4.toNat = 5 then some (.subReg f.regX f.regY)
      else if f.imm4.toNat = 6 then some (.shr f.regX f.regY) else if f.imm4.toNat = 7 then some (.subn f.regX f.regY)
      else if f.imm4.toNat = 0xE then some (.shl f.regX f.regY) else none := by
  unfold dispatch8
  split <;> simp_all [← BitVec.toNat_inj]

/-- Class E on the low byte (R98). -/
theorem dispatchE_eq (f : Fields) :
    dispatchE f =
      if f.imm8.toNat = 0x9E then some (.skp f.regX) else if f.imm8.toNat = 0xA1 then some (.sknp f.regX) else none := by
  unfold dispatchE
  split <;> simp_all [← BitVec.toNat_inj]

/-- Class F on the low byte (R99). -/
theorem dispatchF_eq (f : Fields) :
    dispatchF f =
      if f.imm8.toNat = 0x07 then some (.ldVDt f.regX) else if f.imm8.toNat = 0x0A then some (.ldVK f.regX)
      else if f.imm8.toNat = 0x15 then some (.ldDtV f.regX) else if f.imm8.toNat = 0x18 then some (.ldStV f.regX)
      else if f.imm8.toNat = 0x1E then some (.addI f.regX) else if f.imm8.toNat = 0x29 then some (.ldF f.regX)
      else if f.imm8.toNat = 0x33 then some (.ldB f.regX) else if f.imm8.toNat = 0x55 then some (.storeRegs f.regX)
      else if f.imm8.toNat = 0x65 then some (.loadRegs f.regX) else none := by
  unfold dispatchF
  split <;> simp_all [← BitVec.toNat_inj]

/-- Classes 5 and 9 on the low nibble (R100): the comparison with zero, on its value. -/
theorem ite_imm4_zero (f : Fields) (i : Instr) :
    (if f.imm4 = 0x0#4 then some i else none) = if f.imm4.toNat = 0 then some i else none := by
  simp only [← BitVec.toNat_inj, BitVec.toNat_zero]

/-! ### The dispatch -/

/-- Settles O5: the fields of the word are the given ones, so the dispatch is that of a literal record of fields. There the class
selects the entry by computation, and in the classes with a secondary table the entry is the table's. -/
theorem dispatchFollowsTheClassTables : Obligations.DispatchFollowsTheClassTables := by
  intro w c n k x y nn nnn n4 hc hn hk hx hy hnn hnnn hn4
  have hclass (d : BitVec 4) (hd : c = d.toNat) : dispatch w = dispatchFields ⟨d, nnn, x, y, nn, n4⟩ :=
    congrArg dispatchFields (decodeFields_eq (hd.symm.trans hc) hnnn hx hy (hnn.trans hk) (hn4.trans hn))
  clear hn hk
  subst hnn hn4
  refine ⟨fun h0 => ?class0, hclass 0x1#4, hclass 0x2#4, hclass 0x3#4, hclass 0x4#4, fun h5 => ?class5, hclass 0x6#4,
    hclass 0x7#4, fun h8 => ?class8, fun h9 => ?class9, hclass 0xA#4, hclass 0xB#4, hclass 0xC#4, hclass 0xD#4,
    fun hE => ?classE, fun hF => ?classF⟩
  case class0 => exact (hclass 0x0#4 h0).trans (congrArg some (dispatch0_eq (hc.symm.trans h0) hnnn))
  case class5 => exact (hclass 0x5#4 h5).trans (ite_imm4_zero _ _)
  case class8 => exact (hclass 0x8#4 h8).trans (dispatch8_eq _)
  case class9 => exact (hclass 0x9#4 h9).trans (ite_imm4_zero _ _)
  case classE => exact (hclass 0xE#4 hE).trans (dispatchE_eq _)
  case classF => exact (hclass 0xF#4 hF).trans (dispatchF_eq _)

end Sys2Proof
end

section
/-! PROOFS. Control transfer (41_control.md): the offset of a BNNN as a number, the words of classes 5 and 9 that are no
instruction, and from those and the laws of the skips the obligations on the jumps and on the register skips. -/

namespace Sys2Proof.Machine

/-! ### Jumps (R144, R151) -/

/-- The offset of a BNNN does not wrap: it is at most 0xFFF + 0xFF. -/
theorem zext12_add_zext8_toNat (nnn : BitVec 12) (b : Byte) :
    (zext12 nnn + zext8 b).toNat = nnn.toNat + b.toNat := by
  have hnnn := nnn.isLt
  have hb := b.isLt
  rw [BitVec.toNat_add, zext12_toNat, zext8_toNat]
  exact Nat.mod_eq_of_lt (by omega)

/-- Settles O28: 1NNN leaves the zero-extended NNN in PC, and BNNN adds to PC an offset that does not itself wrap. -/
theorem jumpsGoWhereTheirRulesSay : Obligations.JumpsGoWhereTheirRulesSay := by
  intro nnn s
  constructor
  · exact ⟨_, rfl, rfl, zext12_toNat nnn⟩
  · refine ⟨_, rfl, rfl, ?_⟩
    rw [Nat.add_assoc]
    exact pcAdvancedBy_of_add rfl (zext12_add_zext8_toNat nnn (s.reg 0))

/-! ### Skips on registers (R147 to R150) -/

/-- In classes 5 and 9 a word with a nonzero low nibble is no instruction (R100). -/
theorem dispatch_eq_none_of_imm4_ne_zero {w : Word} (hclass : w.toNat / 4096 = 5 ∨ w.toNat / 4096 = 9)
    (hlow : w.toNat % 16 ≠ 0) : dispatch w = none := by
  obtain ⟨-, -, -, -, -, class5, -, -, -, class9, -⟩ :=
    dispatchFollowsTheClassTables w _ _ _ (decodeFields w).regX (decodeFields w).regY (decodeFields w).imm8
      (decodeFields w).address (decodeFields w).imm4 rfl rfl rfl (decodeFields_regX_val w) (decodeFields_regY_val w)
      (decodeFields_imm8_toNat w) (decodeFields_address_toNat w) (decodeFields_imm4_toNat w)
  rcases hclass with h5 | h9
  · exact (class5 h5).trans (if_neg hlow)
  · exact (class9 h9).trans (if_neg hlow)

/-- Settles O34: each skip's test decides its condition, and the two classes with a register comparison reject every other low
nibble. -/
theorem registerSkipsFollowTheirConditions : Obligations.RegisterSkipsFollowTheirConditions := by
  constructor
  · intro x y nn s
    exact ⟨pcSkips_of_skipIf rfl beq_iff_eq, pcSkips_of_skipIf rfl bne_iff_ne, pcSkips_of_skipIf rfl beq_iff_eq,
      pcSkips_of_skipIf rfl bne_iff_ne⟩
  · intro w hclass hlow
    exact dispatch_eq_none_of_imm4_ne_zero hclass hlow

end Sys2Proof.Machine
end

section
/-! PROOFS. Register loads and ALU (42_alu.md): the loads with an immediate are register loads of a byte whose value is the one
their rule names, and a register load keeps VF unless VF is its register. -/

namespace Sys2Proof.Machine

/-! ### One register set -/

/-- The register that was set. -/
theorem OnlyRegisterIs.reg_self {x : Reg} {b : Byte} {s t : State} (h : OnlyRegisterIs x b s t) : t.reg x = b :=
  (h x).trans (if_pos rfl)

/-- Every other register. -/
theorem OnlyRegisterIs.reg_of_ne {x r : Reg} {b : Byte} {s t : State} (h : OnlyRegisterIs x b s t) (hr : r ≠ x) :
    t.reg r = s.reg r :=
  (h r).trans (if_neg hr)

/-- An instruction that sets one register completes with VF as it was, unless VF is that register. -/
theorem SetsRegister.keeps_vf {i : Instr} {x : Reg} {n : Nat} {s : State} (h : SetsRegister i x n s) :
    ∃ t, exec i s = .next t ∧ t.reg x = BitVec.ofNat 8 n ∧ PcAdvancedBy 2 s t ∧ (x ≠ VF → t.reg VF = s.reg VF) := by
  obtain ⟨t, hexec, hregs, hpc, -⟩ := h
  exact ⟨t, hexec, hregs.reg_self, hpc, fun hx => hregs.reg_of_ne hx.symm⟩

/-! ### Immediate forms (R171, R172) -/

theorem setsRegister_ldImm (x : Reg) (nn : Byte) (s : State) : SetsRegister (.ldImm x nn) x nn.toNat s :=
  setsRegister_of_loadReg rfl (by simp)

theorem setsRegister_addImm (x : Reg) (nn : Byte) (s : State) :
    SetsRegister (.addImm x nn) x (((s.reg x).toNat + nn.toNat) % 256) s :=
  setsRegister_of_loadReg rfl (add8_eq (s.reg x) nn)

/-- Settles O35: both forms set one register; the byte 6XNN loads is its immediate, and the value 7XNN loads, being below 256, is
the value of the byte. -/
theorem immediateLoadAndAddSetOneRegister : Obligations.ImmediateLoadAndAddSetOneRegister := by
  intro x nn s
  constructor
  · obtain ⟨t, hexec, hx, hpc, hvf⟩ := (setsRegister_ldImm x nn s).keeps_vf
    exact ⟨t, hexec, hx.trans (by simp), hpc, hvf⟩
  · obtain ⟨t, hexec, hx, hpc, hvf⟩ := (setsRegister_addImm x nn s).keeps_vf
    refine ⟨t, hexec, ?_, hpc, hvf⟩
    rw [hx, BitVec.toNat_ofNat]
    exact Nat.mod_mod _ 256

end Sys2Proof.Machine
end

section
/-! PROOFS. The index register (43_index_memory.md): an index load changes I and PC alone, and neither word that ANNN and FX29
load wraps. -/

namespace Sys2Proof.Machine

/-! ### One index load -/

/-- Where only I and PC are new, every V register is as it was. -/
theorem OnlyIndexChanged.reg_eq {s t : State} (h : OnlyIndexChanged s t) (r : Reg) : t.reg r = s.reg r :=
  State.reg_congr (congrArg State.v h) r

/-- An index load sets I, advances PC, and changes nothing else. -/
theorem onlyIndexChanged_of_loadIndex {i : Instr} {w : Word} {s : State} (h : exec i s = loadIndex w s) :
    ∃ t, exec i s = .next t ∧ t.i = w ∧ PcAdvancedBy 2 s t ∧ OnlyIndexChanged s t :=
  ⟨_, h, rfl, pcAdvancedBy_of_add (w := 2) rfl rfl, rfl⟩

/-- An index load completes with the value of its word in I, and VF as it was. -/
theorem loadIndex_keeps_vf {i : Instr} {w : Word} {n : Nat} {s : State} (h : exec i s = loadIndex w s)
    (hw : w.toNat = n) : ∃ t, exec i s = .next t ∧ t.i.toNat = n ∧ PcAdvancedBy 2 s t ∧ t.reg VF = s.reg VF := by
  obtain ⟨t, hexec, hi, hpc, hframe⟩ := onlyIndexChanged_of_loadIndex h
  exact ⟨t, hexec, hi ▸ hw, hpc, hframe.reg_eq VF⟩

/-! ### The loads (R200, R202) -/

/-- The glyph address of an unmasked byte does not wrap: it is at most 255 · 5. -/
theorem glyphAddress_toNat (b : Byte) : (BitVec.ofNat 16 (b.toNat * Config.glyphStride)).toNat = b.toNat * 5 := by
  have hb := b.isLt
  rw [BitVec.toNat_ofNat, Config.glyphStride]
  exact Nat.mod_eq_of_lt (by omega)

/-- Settles O41: both forms are index loads, of the zero-extended NNN and of the glyph address. -/
theorem indexLoadsTakeTheirOperand : Obligations.IndexLoadsTakeTheirOperand := by
  intro nnn x s
  constructor
  · exact loadIndex_keeps_vf rfl (zext12_toNat nnn)
  · exact loadIndex_keeps_vf rfl (glyphAddress_toNat (s.reg x))

end Sys2Proof.Machine
end

section
/-! PROOFS. The encoder against the dispatch (30_encoding.md): what the dispatch answers on a word built from fields, the same word
built again from the decoder's fields, and which words a row of R103 selects; from those the obligations on decoding, encoding and
the opcode table. -/

namespace Sys2Proof

/-! ### The dispatch of a word built from fields

The hypothesis of each lemma asks for the answer whatever the fields are that the form does not fix. -/

theorem dispatch_encNNN {c : BitVec 4} {nnn : BitVec 12} {i : Instr}
    (h : ∀ x y nn n, dispatchFields ⟨c, nnn, x, y, nn, n⟩ = some i) : dispatch (encNNN c nnn) = some i := by
  obtain ⟨hcls, haddress⟩ := decodeFields_encNNN c nnn
  generalize encNNN c nnn = w at *
  subst hcls haddress
  exact h _ _ _ _

theorem dispatch_encXNN {c : BitVec 4} {x : Reg} {nn : Byte} {i : Instr}
    (h : ∀ nnn y n, dispatchFields ⟨c, nnn, x, y, nn, n⟩ = some i) : dispatch (encXNN c x nn) = some i := by
  obtain ⟨hcls, hregX, himm8⟩ := decodeFields_encXNN c x nn
  generalize encXNN c x nn = w at *
  subst hcls hregX himm8
  exact h _ _ _

theorem dispatch_encXYN {c : BitVec 4} {x y : Reg} {n : BitVec 4} {i : Instr}
    (h : ∀ nnn nn, dispatchFields ⟨c, nnn, x, y, nn, n⟩ = some i) : dispatch (encXYN c x y n) = some i := by
  obtain ⟨hcls, hregX, hregY, himm4⟩ := decodeFields_encXYN c x y n
  generalize encXYN c x y n = w at *
  subst hcls hregX hregY himm4
  exact h _ _

/-- A word of class 0 that is neither of the two fixed words of R96. -/
theorem dispatch_encNNN_sys {nnn : BitVec 12} (h : (Instr.sys nnn).wellFormed = true) :
    dispatch (encNNN 0x0#4 nnn) = some (.sys nnn) := by
  simp only [Instr.wellFormed, Bool.and_eq_true, bne_iff_ne] at h
  obtain ⟨hcls, hret⟩ := h
  refine dispatch_encNNN fun _ _ _ _ => congrArg some ?_
  rw [dispatch0, if_neg hcls, if_neg hret]

/-- The dispatch answers every well-formed instruction on its encoding (R102, R103). -/
theorem dispatch_encode {i : Instr} (h : i.wellFormed = true) : dispatch (encode i) = some i := by
  cases i with
  | cls | ret => rfl
  | sys nnn => exact dispatch_encNNN_sys h
  | jp | call | ldI | jpV0 => exact dispatch_encNNN fun _ _ _ _ => rfl
  | seImm | sneImm | ldImm | addImm | rnd | skp | sknp => exact dispatch_encXNN fun _ _ _ => rfl
  | ldVDt | ldVK | ldDtV | ldStV | addI | ldF | ldB | storeRegs | loadRegs => exact dispatch_encXNN fun _ _ _ => rfl
  | seReg | sneReg | ldReg | orReg | andReg | xorReg | addReg | subReg => exact dispatch_encXYN fun _ _ => rfl
  | shr | subn | shl | drw => exact dispatch_encXYN fun _ _ => rfl

/-- Settles O1: decoding the two bytes of a word is dispatching the word, and the dispatch inverts the encoder. -/
theorem decodeOfEncodeIsTheInstruction : Obligations.DecodeOfEncodeIsTheInstruction := by
  intro i rest hwf
  rw [decodeBytes_bytesOfWord, dispatch_encode hwf]

/-- Settles O6: each of the ten words is dispatched by computation. -/
theorem sampleWordsDecodeAsTheSpecSays : Obligations.SampleWordsDecodeAsTheSpecSays := by
  simp only [Obligations.SampleWordsDecodeAsTheSpecSays, decodeTableWord_eq]
  decide

/-! ### A word built again from its own fields -/

theorem encNNN_decodeFields (w : Word) : encNNN (decodeFields w).cls (decodeFields w).address = w := by
  apply BitVec.eq_of_toNat_eq
  rw [encNNN_toNat, decodeFields_cls_toNat, decodeFields_address_toNat]
  omega

theorem encXNN_decodeFields (w : Word) : encXNN (decodeFields w).cls (decodeFields w).regX (decodeFields w).imm8 = w := by
  apply BitVec.eq_of_toNat_eq
  rw [encXNN_toNat, decodeFields_cls_toNat, decodeFields_regX_val, decodeFields_imm8_toNat]
  omega

theorem encXYN_decodeFields (w : Word) :
    encXYN (decodeFields w).cls (decodeFields w).regX (decodeFields w).regY (decodeFields w).imm4 = w := by
  apply BitVec.eq_of_toNat_eq
  rw [encXYN_toNat, decodeFields_cls_toNat, decodeFields_regX_val, decodeFields_regY_val, decodeFields_imm4_toNat]
  omega

/-- `i` is well formed and its word is the one the fields `f` are of, in whichever of the three forms it is built. -/
def Fields.EncodedBy (f : Fields) (i : Instr) : Prop :=
  i.wellFormed = true ∧
    (encode i = encNNN f.cls f.address ∨ encode i = encXNN f.cls f.regX f.imm8 ∨
      encode i = encXYN f.cls f.regX f.regY f.imm4)

theorem encode_of_encodedBy {w : Word} {i : Instr} (h : (decodeFields w).EncodedBy i) :
    i.wellFormed = true ∧ encode i = w := by
  obtain ⟨hwf, hword⟩ := h
  rw [encNNN_decodeFields, encXNN_decodeFields, encXYN_decodeFields, or_self, or_self] at hword
  exact ⟨hwf, hword⟩

theorem dispatch0_encodedBy {f : Fields} (hcls : f.cls = 0x0#4) : f.EncodedBy (dispatch0 f) := by
  rw [Fields.EncodedBy, hcls]
  unfold dispatch0
  split
  next h => exact ⟨rfl, .inl (h ▸ rfl)⟩
  next hne =>
    split
    next h => exact ⟨rfl, .inl (h ▸ rfl)⟩
    next hne' => exact ⟨by simp [Instr.wellFormed, hne, hne'], .inl rfl⟩

/-- In class 8 every entry of the table is of the form `8XYn`, with the low nibble that selects it. -/
theorem dispatch8_encodedBy {f : Fields} {i : Instr} (hcls : f.cls = 0x8#4) (h : dispatch8 f = some i) :
    f.EncodedBy i := by
  rw [Fields.EncodedBy, hcls]
  unfold dispatch8 at h
  split at h
  case h_10 => cases h
  all_goals
    next hn =>
      cases h
      exact ⟨rfl, .inr (.inr (hn ▸ rfl))⟩

/-- In class E every entry of the table is of the form `EXnn`, with the low byte that selects it. -/
theorem dispatchE_encodedBy {f : Fields} {i : Instr} (hcls : f.cls = 0xE#4) (h : dispatchE f = some i) :
    f.EncodedBy i := by
  rw [Fields.EncodedBy, hcls]
  unfold dispatchE at h
  split at h
  case h_3 => cases h
  all_goals
    next hn =>
      cases h
      exact ⟨rfl, .inr (.inl (hn ▸ rfl))⟩

/-- In class F every entry of the table is of the form `FXnn`, with the low byte that selects it. -/
theorem dispatchF_encodedBy {f : Fields} {i : Instr} (hcls : f.cls = 0xF#4) (h : dispatchF f = some i) :
    f.EncodedBy i := by
  rw [Fields.EncodedBy, hcls]
  unfold dispatchF at h
  split at h
  case h_10 => cases h
  all_goals
    next hn =>
      cases h
      exact ⟨rfl, .inr (.inl (hn ▸ rfl))⟩

/-- Classes 5 and 9 answer one instruction, of the form `cXY0` (R100). -/
theorem ite_imm4_encodedBy {f : Fields} {i j : Instr} (hwf : i.wellFormed = true)
    (hword : encode i = encXYN f.cls f.regX f.regY 0x0#4) (h : (if f.imm4 = 0x0#4 then some i else none) = some j) :
    f.EncodedBy j := by
  split at h
  next hn =>
    cases h
    exact ⟨hwf, .inr (.inr (hn ▸ hword))⟩
  next => cases h

/-- The dispatch answers an instruction only where the fields are those of its encoding: one case for each class. -/
theorem dispatchFields_encodedBy {f : Fields} {i : Instr} (h : dispatchFields f = some i) : f.EncodedBy i := by
  unfold dispatchFields at h
  split at h
  case h_1 hcls => cases h; exact dispatch0_encodedBy hcls
  case h_6 hcls => exact ite_imm4_encodedBy rfl (hcls ▸ rfl) h
  case h_9 hcls => exact dispatch8_encodedBy hcls h
  case h_10 hcls => exact ite_imm4_encodedBy rfl (hcls ▸ rfl) h
  case h_14 hcls => cases h; exact ⟨rfl, .inr (.inr (hcls ▸ rfl))⟩
  case h_15 hcls => exact dispatchE_encodedBy hcls h
  case h_16 hcls => exact dispatchF_encodedBy hcls h
  case h_17 => cases h
  case h_2 hcls | h_3 hcls | h_11 hcls | h_12 hcls => cases h; exact ⟨rfl, .inl (hcls ▸ rfl)⟩
  case h_4 hcls | h_5 hcls | h_7 hcls | h_8 hcls | h_13 hcls => cases h; exact ⟨rfl, .inr (.inl (hcls ▸ rfl))⟩

/-- Settles O2: the dispatch answers an instruction only on the fields of its encoding, and the fields determine the word. -/
theorem encodeOfDecodeIsTheWord : Obligations.EncodeOfDecodeIsTheWord := by
  intro w i h
  exact encode_of_encodedBy (dispatchFields_encodedBy h)

/-! ### The rows of R103 -/

/-- The encoding of an instruction is selected by its own row, for all 35 constructors. -/
theorem tableRow (i : Instr) : Laws.TableRow.Statement i := by
  cases i with
  | cls => exact Laws.TableRow.cls
  | ret => exact Laws.TableRow.ret
  | sys | jp | call | ldI | jpV0 => exact encNNN_and_class _ _
  | seImm | sneImm | ldImm | addImm | rnd => exact encXNN_and_class _ _ _
  | drw => exact encXYN_and_class _ _ _ _
  | seReg | sneReg | ldReg | orReg | andReg | xorReg | addReg | subReg | shr | subn | shl => exact encXYN_and_low _ _ _ _
  | skp | sknp | ldVDt | ldVK | ldDtV | ldStV | addI | ldF | ldB | storeRegs | loadRegs => exact encXNN_and_low _ _ _

/-- The row of every instruction is one of the table's. -/
theorem row_mem_opcodeRows (i : Instr) : (i.rowMask, i.rowMatch) ∈ opcodeRows := by
  cases i <;> simp only [Instr.rowMask, Instr.rowMatch] <;> decide

/-- Every word the row selects is an instruction. -/
def RowDecodes (r : Word × Word) : Prop :=
  ∀ w : Word, w &&& r.1 = r.2 → (dispatch w).isSome = true

/-- A row that fixes the class alone (R95, R101). -/
theorem rowDecodes_class (c : BitVec 4) (h : ∀ nnn x y nn n, (dispatchFields ⟨c, nnn, x, y, nn, n⟩).isSome = true) :
    RowDecodes (0xF000#16, encNNN c 0) := by
  intro w hw
  rw [← encNNN_decodeFields w, encNNN_and_class] at hw
  have hcls := congrArg (fun w => (decodeFields w).cls) hw
  simp only [decodeFields_encNNN] at hcls
  have := h (decodeFields w).address (decodeFields w).regX (decodeFields w).regY (decodeFields w).imm8 (decodeFields w).imm4
  rwa [← hcls] at this

/-- A row that fixes the class and the low nibble (R97, R100). -/
theorem rowDecodes_nibble (c n : BitVec 4) (h : ∀ nnn x y nn, (dispatchFields ⟨c, nnn, x, y, nn, n⟩).isSome = true) :
    RowDecodes (0xF00F#16, encXYN c 0 0 n) := by
  intro w hw
  rw [← encXYN_decodeFields w, encXYN_and_low] at hw
  have hcls := congrArg (fun w => (decodeFields w).cls) hw
  have himm4 := congrArg (fun w => (decodeFields w).imm4) hw
  simp only [decodeFields_encXYN] at hcls himm4
  have := h (decodeFields w).address (decodeFields w).regX (decodeFields w).regY (decodeFields w).imm8
  rwa [← hcls, ← himm4] at this

/-- A row that fixes the class and the low byte (R98, R99). -/
theorem rowDecodes_byte (c : BitVec 4) (nn : Byte)
    (h : ∀ nnn x y n, (dispatchFields ⟨c, nnn, x, y, nn, n⟩).isSome = true) : RowDecodes (0xF0FF#16, encXNN c 0 nn) := by
  intro w hw
  rw [← encXNN_decodeFields w, encXNN_and_low] at hw
  have hcls := congrArg (fun w => (decodeFields w).cls) hw
  have himm8 := congrArg (fun w => (decodeFields w).imm8) hw
  simp only [decodeFields_encXNN] at hcls himm8
  have := h (decodeFields w).address (decodeFields w).regX (decodeFields w).regY (decodeFields w).imm4
  rwa [← hcls, ← himm8] at this

theorem and_fullMask (w : Word) : w &&& 0xFFFF#16 = w :=
  BitVec.and_allOnes

/-- A row that fixes the whole word (R96). -/
theorem rowDecodes_word {v : Word} (h : (dispatch v).isSome = true) : RowDecodes (0xFFFF#16, v) := by
  intro w hw
  rw [and_fullMask] at hw
  rwa [hw]

/-- Each of the 35 rows, in the table's order, by the form of its mask. -/
theorem rowDecodes_of_mem : ∀ r ∈ opcodeRows, RowDecodes r := by
  simp only [opcodeRows, List.forall_mem_append, List.forall_mem_cons, List.not_mem_nil, false_implies, implies_true,
    and_true, and_assoc]
  refine ⟨rowDecodes_word rfl, rowDecodes_word rfl, rowDecodes_class 0x0 ?_, rowDecodes_class 0x1 ?_,
    rowDecodes_class 0x2 ?_, rowDecodes_class 0x3 ?_, rowDecodes_class 0x4 ?_, rowDecodes_nibble 0x5 0x0 ?_,
    rowDecodes_class 0x6 ?_, rowDecodes_class 0x7 ?_, rowDecodes_nibble 0x8 0x0 ?_, rowDecodes_nibble 0x8 0x1 ?_,
    rowDecodes_nibble 0x8 0x2 ?_, rowDecodes_nibble 0x8 0x3 ?_, rowDecodes_nibble 0x8 0x4 ?_,
    rowDecodes_nibble 0x8 0x5 ?_, rowDecodes_nibble 0x8 0x6 ?_, rowDecodes_nibble 0x8 0x7 ?_,
    rowDecodes_nibble 0x8 0xE ?_, rowDecodes_nibble 0x9 0x0 ?_, rowDecodes_class 0xA ?_, rowDecodes_class 0xB ?_,
    rowDecodes_class 0xC ?_, rowDecodes_class 0xD ?_, rowDecodes_byte 0xE 0x9E ?_, rowDecodes_byte 0xE 0xA1 ?_,
    rowDecodes_byte 0xF 0x07 ?_, rowDecodes_byte 0xF 0x0A ?_, rowDecodes_byte 0xF 0x15 ?_, rowDecodes_byte 0xF 0x18 ?_,
    rowDecodes_byte 0xF 0x1E ?_, rowDecodes_byte 0xF 0x29 ?_, rowDecodes_byte 0xF 0x33 ?_, rowDecodes_byte 0xF 0x55 ?_,
    rowDecodes_byte 0xF 0x65 ?_⟩
  all_goals intros; rfl

/-- Two rows that select one word agree on the bits both masks keep. -/
theorem rows_agree {w : Word} {p q : Word × Word} (hp : w &&& p.1 = p.2) (hq : w &&& q.1 = q.2) :
    p.2 &&& q.1 = q.2 &&& p.1 := by
  rw [← hp, ← hq, BitVec.and_assoc, BitVec.and_assoc, BitVec.and_comm p.1 q.1]

/-- Of two different rows of the table, only row 0NNN can be the later one where they agree on the bits both masks keep. -/
theorem rows_disagree : ∀ j k : Fin 35, j < k →
    (opcodeRows.get (j.cast rfl)).2 &&& (opcodeRows.get (k.cast rfl)).1 =
      (opcodeRows.get (k.cast rfl)).2 &&& (opcodeRows.get (j.cast rfl)).1 → k = 2 := by
  decide

/-- Settles O3: a word that decodes is selected by the row of its instruction, and each row selects only words that decode. Two
rows that select one word agree on the bits both masks keep, so the later one is row 0NNN, and the two rows before it fix the
whole word. -/
theorem rowsSelectExactlyTheInstructions : Obligations.RowsSelectExactlyTheInstructions := by
  constructor
  · intro w
    constructor
    · intro hsome
      obtain ⟨i, hi⟩ := Option.isSome_iff_exists.mp hsome
      obtain ⟨-, rfl⟩ := encodeOfDecodeIsTheWord w i hi
      exact ⟨_, row_mem_opcodeRows i, tableRow i⟩
    · rintro ⟨r, hmem, hselects⟩
      exact rowDecodes_of_mem r hmem w hselects
  · intro w j k hjk hj hk
    have hk2 : k = 2 := rows_disagree j k hjk (rows_agree hj hk)
    subst hk2
    refine ⟨rfl, ?_⟩
    rcases (show j = 0 ∨ j = 1 by omega) with rfl | rfl
    · exact .inl ((and_fullMask w).symm.trans hj)
    · exact .inr ((and_fullMask w).symm.trans hj)

end Sys2Proof
end

section
/-! PROOFS. What an instruction can do, said once (R9, R123): each of the 35 completes, its effect bounded by who may write what, or
raises an error, or suspends, or is the CALL that STACK_OVERFLOW_POLICY governs. -/

namespace Sys2Proof.Machine

/-! ### The four ways an instruction answers -/

/-- The two instructions that assert redraw (R127). -/
def draws : Instr → Bool
  | .cls => true
  | .drw _ _ _ => true
  | _ => false

theorem draws_iff (i : Instr) : draws i = true ↔ i = .cls ∨ ∃ x y n, i = .drw x y n := by
  cases i <;> simp [draws]

/-- The values PC can have after an instruction that completes in `s`. -/
inductive NextPc (s : State) : Word → Prop
  | next : NextPc s (s.pc + 2)
  | skip : NextPc s (s.pc + 4)
  | jump (nnn : BitVec 12) : NextPc s (zext12 nnn)
  | offset (nnn : BitVec 12) (b : Byte) : NextPc s (s.pc + (zext12 nnn + zext8 b))
  | ret : NextPc s s.top

/-- What `t` keeps of `s` where `i` completes: each piece of state has its writers. A field not given is one that `t` does not
write. -/
structure Completes (i : Instr) (s t : State) : Prop where
  outcome : t.outcome = .ok := by rfl
  redraw : t.redraw = draws i
  nextPc : NextPc s t.pc := by exact .next
  reg : ∀ r, ¬MayWriteRegister i r → t.reg r = s.reg r := by intros; rfl
  mem : (∀ x, i ≠ .ldB x ∧ i ≠ .storeRegs x) → t.mem = s.mem := by intros; rfl
  memWf : s.mem.wf → t.mem.wf := by exact id
  fb : draws i = false → t.fb = s.fb := by intros; rfl
  sp : i ≠ .ret → (∀ nnn, i ≠ .call nnn) → t.sp = s.sp := by intros; rfl
  stack : (∀ nnn, i ≠ .call nnn) → t.stack = s.stack := by intros; rfl
  stackEntry : ∀ k, t.stack.get k = s.stack.get k ∨ t.stack.get k = s.pc + 2 := by exact fun _ => .inl rfl
  index : (∀ nnn, i ≠ .ldI nnn) → (∀ x, i ≠ .addI x ∧ i ≠ .ldF x) → t.i = s.i := by intros; rfl
  dt : (∀ x, i ≠ .ldDtV x) → t.dt = s.dt := by intros; rfl
  st : (∀ x, i ≠ .ldStV x) → t.st = s.st := by intros; rfl
  waiting : t.waiting = s.waiting := by rfl
  edge : t.edge = s.edge := by rfl
  keys : t.keys = s.keys := by rfl
  quit : t.quit = s.quit := by rfl

/-- The answers of `i` in `s`. -/
inductive Answers (i : Instr) (s : State) : Result → Prop
  | completes {t : State} (h : Completes i s t) : Answers i s (.next t)
  | errs {e : StepOutcome} (h : e.isError = true) : Answers i s (.next (s.raised e))
  | suspends (x : Reg) (h : i = .ldVK x) :
    Answers i s (.next { s with waiting := some x, edge := none, outcome := .suspended, redraw := false })
  | overflows {t : State} (p : OverflowPolicy) (nnn : BitVec 12) (h : IsOverflowingCall i s)
    (ht : applyOverflow p nnn s = .next t) : Answers i s (.next t)

/-! ### The operand forms -/

theorem reg_setReg_of_not_mayWrite {i : Instr} {x r : Reg} (s : State) (b : Byte) (hx : MayWriteRegister i x)
    (hr : ¬MayWriteRegister i r) : (s.setReg x b).reg r = s.reg r := by
  rw [State.reg_setReg, if_neg]
  rintro rfl
  exact hr hx

theorem answers_loadReg {i : Instr} {x : Reg} {b : Byte} {s : State} (hdraws : draws i = false)
    (hx : MayWriteRegister i x) : Answers i s (loadReg x b s) :=
  .completes { redraw := hdraws.symm, reg := fun _ hr => reg_setReg_of_not_mayWrite s b hx hr }

theorem answers_flagThenResult {i : Instr} {x y : Reg} {flag result : Byte → Byte → Byte} {s : State}
    (hdraws : draws i = false) (hx : MayWriteRegister i x) (hvf : MayWriteRegister i VF) :
    Answers i s (flagThenResult flag result x y s) :=
  .completes {
    redraw := hdraws.symm
    reg := fun _ hr => (reg_setReg_of_not_mayWrite _ _ hx hr).trans (reg_setReg_of_not_mayWrite s _ hvf hr) }

theorem answers_advance {i : Instr} {s : State} (hdraws : draws i = false) : Answers i s (done (s.advance 2)) :=
  .completes { redraw := hdraws.symm }

theorem answers_skipIf {i : Instr} {s : State} (c : Bool) (hdraws : draws i = false) : Answers i s (done (s.skipIf c)) := by
  cases c with
  | false => exact answers_advance hdraws
  | true => exact .completes { redraw := hdraws.symm, nextPc := .skip }

theorem answers_orOutOfBounds {i : Instr} {α : Type} {r : Except Nat α} {s : State} {k : α → Result}
    (h : ∀ v, r = .ok v → Answers i s (k v)) : Answers i s (orOutOfBounds r s k) := by
  rcases orOutOfBounds_cases r s k with ⟨v, hr, hk⟩ | ⟨a, -, hk⟩
  · rw [hk]
    exact h v hr
  · rw [hk]
    exact .errs rfl

theorem answers_storeBlock {i : Instr} {bs : List Byte} {s : State} (hdraws : draws i = false)
    (hstores : ¬∀ x, i ≠ .ldB x ∧ i ≠ .storeRegs x) : Answers i s (storeBlock bs s) :=
  answers_orOutOfBounds fun _ hwrite =>
    .completes {
      redraw := hdraws.symm
      mem := fun h => absurd h hstores
      memWf := fun hwf => Memory.wf_writeBlock hwf hwrite }

theorem answers_withKey {i : Instr} {x : Reg} {s : State} {k : Bool → Result} (h : ∀ b, Answers i s (k b)) :
    Answers i s (withKey x s k) := by
  by_cases hcode : (s.reg x).toNat < 16
  · rw [withKey_of_lt hcode]
    exact h _
  · rw [withKey_of_ge (Nat.le_of_not_lt hcode)]
    exact .errs rfl

theorem answers_ret (s : State) : Answers .ret s (execRet s) := by
  unfold execRet
  split
  · exact .completes { redraw := rfl, nextPc := .ret, sp := fun h => absurd rfl h }
  · exact answers_advance rfl

/-- An entry of a register file, of the stack or of the keys, after one entry is written. -/
theorem vector_get_set {α : Type} {n : Nat} (v : Vector α n) (j k : Fin n) (b : α) :
    (v.set k.val b k.isLt).get j = if j = k then b else v.get j := by
  simp only [Vector.get_eq_getElem, Vector.getElem_set, Fin.ext_iff, eq_comm]

theorem answers_callWith (p : OverflowPolicy) (nnn : BitVec 12) (s : State) : Answers (.call nnn) s (callWith p nnn s) := by
  by_cases hroom : s.sp.val < 16
  · rw [callWith_of_lt hroom]
    refine .completes {
      redraw := rfl
      nextPc := .jump nnn
      sp := fun _ h => absurd rfl (h nnn)
      stack := fun h => absurd rfl (h nnn)
      stackEntry := fun k => ?_ }
    have hentry := vector_get_set s.stack k ⟨s.sp.val, hroom⟩ (s.pc + 2)
    split at hentry
    · exact .inr hentry
    · exact .inl hentry
  · have hfull : s.sp.val = 16 := by omega
    rw [callWith_of_full hfull]
    obtain ⟨t, ht⟩ := applyOverflow_next p nnn s
    rw [ht]
    exact .overflows p nnn ⟨hfull, nnn, rfl⟩ ht

theorem Memory.readBlock_length {m : Memory} {a n : Nat} {bs : List Byte} (h : m.readBlock a n = .ok bs) : bs.length = n := by
  unfold Memory.readBlock at h
  split at h
  · cases h
  · cases h
    exact Memory.bytesAt_length m a n

/-- A block of registers loaded from V[0] up to V[x] leaves those above. -/
theorem reg_of_setRegsFrom_of_gt {s t : State} {x r : Reg} {bs : List Byte} (ht : t.v = setRegsFrom s.v 0 bs)
    (hlength : bs.length = x.val + 1) (hr : ¬r ≤ x) : t.reg r = s.reg r := by
  have hx := x.isLt
  rw [Fin.le_def] at hr
  rw [State.reg, ht, setRegsFrom_get s.v 0 bs r (by omega), if_neg (by omega), State.reg]

theorem answers_loadRegs (x : Reg) (s : State) : Answers (.loadRegs x) s (execLoadRegs x s) :=
  answers_orOutOfBounds fun bs hread =>
    .completes {
      redraw := rfl
      reg := fun r (hr : ¬r ≤ x) => reg_of_setRegsFrom_of_gt (bs := bs) rfl (Memory.readBlock_length hread) hr }

/-! ### The instructions whose form takes a function

The forms of the others are found by unfolding. -/

theorem exec_shr (x y : Reg) (s : State) :
    exec (.shr x y) s = flagThenResult (fun a _ => shiftedOutRight a) (fun a _ => shr8 a) x y s := rfl

theorem exec_subn (x y : Reg) (s : State) :
    exec (.subn x y) s = flagThenResult (fun a b => noBorrowFlag b a) (fun a b => sub8 b a) x y s := rfl

theorem exec_shl (x y : Reg) (s : State) :
    exec (.shl x y) s = flagThenResult (fun a _ => rawTopBit a) (fun a _ => shl8 a) x y s := rfl

theorem exec_skp (x : Reg) (s : State) : exec (.skp x) s = withKey x s fun pressed => done (s.skipIf pressed) := rfl

theorem exec_sknp (x : Reg) (s : State) : exec (.sknp x) s = withKey x s fun pressed => done (s.skipIf (!pressed)) := rfl

/-! ### Every instruction -/

/-- Each instruction by its form (R123). -/
theorem exec_answers (i : Instr) (s : State) : Answers i s (exec i s) := by
  cases i with
  | cls => exact .completes { redraw := rfl, fb := fun h => nomatch h }
  | ret => exact answers_ret s
  | sys => exact answers_advance rfl
  | jp nnn => exact .completes { redraw := rfl, nextPc := .jump nnn }
  | call nnn => exact answers_callWith _ nnn s
  | seImm | sneImm | seReg | sneReg => exact answers_skipIf _ rfl
  | ldImm | addImm | ldReg | orReg | andReg | xorReg | rnd | ldVDt => exact answers_loadReg rfl rfl
  | addReg | subReg => exact answers_flagThenResult rfl (Or.inl rfl) (Or.inr rfl)
  | shr => rw [exec_shr]; exact answers_flagThenResult rfl (Or.inl rfl) (Or.inr rfl)
  | subn => rw [exec_subn]; exact answers_flagThenResult rfl (Or.inl rfl) (Or.inr rfl)
  | shl => rw [exec_shl]; exact answers_flagThenResult rfl (Or.inl rfl) (Or.inr rfl)
  | ldI nnn => exact .completes { redraw := rfl, index := fun h => absurd rfl (h nnn) }
  | ldF x => exact .completes { redraw := rfl, index := fun _ h => absurd rfl (h x).2 }
  | addI x =>
    exact .completes {
      redraw := rfl
      reg := fun _ hr => reg_setReg_of_not_mayWrite s _ (i := .addI x) rfl hr
      index := fun _ h => absurd rfl (h x).1 }
  | jpV0 nnn => exact .completes { redraw := rfl, nextPc := .offset nnn (s.reg 0) }
  | drw x y n =>
    exact answers_orOutOfBounds fun rows _ =>
      .completes {
        redraw := rfl
        reg := fun _ hr => reg_setReg_of_not_mayWrite _ _ (i := .drw x y n) rfl hr
        fb := fun h => nomatch h }
  | skp => rw [exec_skp]; exact answers_withKey fun _ => answers_skipIf _ rfl
  | sknp => rw [exec_sknp]; exact answers_withKey fun _ => answers_skipIf _ rfl
  | ldVK x => exact .suspends x rfl
  | ldDtV x => exact .completes { redraw := rfl, dt := fun h => absurd rfl (h x) }
  | ldStV x => exact .completes { redraw := rfl, st := fun h => absurd rfl (h x) }
  | ldB x => exact answers_storeBlock rfl fun h => (h x).1 rfl
  | storeRegs x => exact answers_storeBlock rfl fun h => (h x).2 rfl
  | loadRegs x => exact answers_loadRegs x s

theorem answers_of_exec {i : Instr} {s t : State} (h : exec i s = .next t) : Answers i s (.next t) :=
  h ▸ exec_answers i s

end Sys2Proof.Machine
end

section
/-! PROOFS. Invariants and whole-machine rules (10_state.md, 40_cycle.md, 60_exceptions.md), each from the cases of a step
(`step_cases`) and, where an instruction runs, from the ways it can answer (`answers_of_exec`). -/

namespace Sys2Proof.Machine

/-! ### Over all instructions -/

/-- Settles O27: all four ways of answering are next states. -/
theorem noInstructionStopsTheMachine : Obligations.NoInstructionStopsTheMachine := by
  intro i s
  have hanswers := exec_answers i s
  generalize exec i s = r at hanswers ⊢
  cases hanswers <;> exact ⟨_, rfl⟩

/-- Settles O26: an instruction that completes keeps what it is no writer of, one that errs keeps everything, and FX0A writes WAIT
and EDGE alone. -/
theorem eachPieceOfStateHasItsWriters : Obligations.EachPieceOfStateHasItsWriters := by
  intro i s t hcall hexec
  cases answers_of_exec hexec with
  | completes h =>
    refine ⟨h.reg, fun hok => absurd h.outcome hok, h.mem, fun hcls hdrw => h.fb ?_, h.sp, h.stack, h.index, h.dt, h.st,
      fun _ => ⟨h.waiting, h.edge⟩, h.keys, h.quit⟩
    rw [← Bool.not_eq_true, draws_iff, not_or]
    exact ⟨hcls, fun ⟨x, y, n, hi⟩ => hdrw x y n hi⟩
  | errs => simp
  | suspends x hi =>
    subst hi
    refine ⟨fun _ _ => rfl, ?_⟩
    simp
  | overflows p nnn h => exact absurd h hcall

/-! ### What every step keeps -/

/-- What the end of a transition keeps, and an error, a completed key wait and every instruction that can run next leave, holds after
the step: the cases of `step_cases`, for the invariants below. -/
theorem step_keeps {P : State → Prop} {s t : State} (hstep : step s = .next t) (hend : ∀ u, P u → P u.endStep)
    (hraised : ∀ e, P (s.raised e)) (hwait : ∀ x k, s.waiting = some x → P (s.completeKeyWait x k))
    (hexec : ∀ i u, RunsNext i s → exec i s = .next u → P u) : P t := by
  obtain ⟨-, ⟨x, k, hw, -, rfl⟩ | ⟨-, -, rfl⟩ | ⟨w, -, -, -, -, rfl⟩ | ⟨i, u, hnext, hu, rfl⟩⟩ := step_cases hstep
  · exact hend _ (hwait x k hw)
  · exact hend _ (hraised _)
  · exact hend _ (hraised _)
  · exact hend _ (hexec i u hnext hu)

/-! ### Legal states -/

theorem legal_endStep {s : State} (h : s.legal) : s.endStep.legal := by
  simpa only [State.legal, State.endStep_mem, State.endStep_waiting, State.endStep_edge] using h

theorem legal_of_answers {i : Instr} {s t : State} (hs : s.legal) (h : Answers i s (.next t)) : t.legal := by
  cases h with
  | completes h => exact ⟨h.memWf hs.1, fun hw => h.edge.trans (hs.2 (h.waiting.symm.trans hw))⟩
  | errs => exact hs
  | suspends x => exact ⟨hs.1, fun hw => nomatch hw⟩
  | overflows p nnn _ ht => exact applyOverflow_legal hs ht

/-- Settles O21: a completed key wait clears WAIT and EDGE together, an error writes neither of them nor MEM, and every way an
instruction answers keeps a state legal. -/
theorem everyStepKeepsAStateLegal : Obligations.EveryStepKeepsAStateLegal := by
  intro s t hs hstep
  refine step_keeps hstep (fun _ => legal_endStep) (fun _ => hs) (fun _ _ _ => ?wait) (fun _ _ _ hexec => ?exec)
  case wait => exact ⟨hs.1, fun _ => rfl⟩
  case exec => exact legal_of_answers hs (answers_of_exec hexec)

/-! ### The bound of PC -/

/-- From an address that can be fetched, PC goes to one within the bound of R22: the largest is that of a BNNN at 4094. -/
theorem NextPc.toNat_le {s : State} {w : Word} (h : NextPc s w) (hpc : s.pc.toNat ≤ 4094)
    (hstack : ∀ k : Fin 16, (s.stack.get k).toNat ≤ 4096) : w.toNat ≤ 8444 := by
  cases h with
  | next => rw [BitVec.toNat_add, show (2 : Word).toNat = 2 from rfl]; omega
  | skip => rw [BitVec.toNat_add, show (4 : Word).toNat = 4 from rfl]; omega
  | jump nnn =>
    have := nnn.isLt
    rw [zext12_toNat]
    omega
  | offset nnn b =>
    have := nnn.isLt
    have := b.isLt
    rw [BitVec.toNat_add, zext12_add_zext8_toNat]
    omega
  | ret => exact Nat.le_trans (hstack _) (by decide)

theorem pcBounded_endStep {s : State} (h : PcBounded s) : PcBounded s.endStep := by
  simpa only [PcBounded, State.endStep_pc, State.endStep_stack, State.endStep_waiting] using h

/-- The completion of a key wait: the FX0A was fetched, so PC + 2 is within the bound. -/
theorem pcBounded_completeKeyWait {s : State} {x : Reg} (k : Key) (h : PcBounded s) (hw : s.waiting = some x) :
    PcBounded (s.completeKeyWait x k) := by
  obtain ⟨-, hstack, hwait⟩ := h
  have hpc : s.pc.toNat ≤ 4094 := hwait (by simp [hw])
  exact ⟨NextPc.next.toNat_le hpc hstack, hstack, fun hne => absurd rfl hne⟩

/-- An instruction that runs was fetched, so PC and PC + 2, the address a CALL pushes, are at most 4094 and 4096. -/
theorem pcBounded_of_answers {i : Instr} {s t : State} (hs : PcBounded s) (hnext : RunsNext i s)
    (hcall : ¬IsOverflowingCall i s) (h : Answers i s (.next t)) : PcBounded t := by
  obtain ⟨hpc, hstack, -⟩ := hs
  obtain ⟨-, hw, hfetch, -⟩ := hnext
  have hle : s.pc.toNat ≤ 4094 := by omega
  cases h with
  | completes h =>
    refine ⟨h.nextPc.toNat_le hle hstack, fun k => ?_, fun hne => absurd (h.waiting.trans hw) hne⟩
    rcases h.stackEntry k with hk | hk
    · rw [hk]
      exact hstack k
    · rw [hk, BitVec.toNat_add, show (2 : Word).toNat = 2 from rfl]
      omega
  | errs => exact ⟨hpc, hstack, fun _ => hle⟩
  | suspends x => exact ⟨hpc, hstack, fun _ => hle⟩
  | overflows p nnn h => exact absurd h hcall

theorem not_isOverflowingCall {i : Instr} {s : State} (h : ¬StepIsOverflowingCall s) (hnext : RunsNext i s) :
    ¬IsOverflowingCall i s := by
  rintro ⟨hsp, nnn, rfl⟩
  exact h ⟨nnn, hnext, hsp⟩

/-- Settles O24: an error writes none of the three, and a key wait and an instruction stay within the bound. -/
theorem pcStaysBounded : Obligations.PcStaysBounded := by
  intro s t hs hcall hstep
  refine step_keeps hstep (fun _ => pcBounded_endStep) (fun _ => hs) (fun _ k hw => ?wait) (fun _ _ hnext hexec => ?exec)
  case wait => exact pcBounded_completeKeyWait k hs hw
  case exec => exact pcBounded_of_answers hs hnext (not_isOverflowingCall hcall hnext) (answers_of_exec hexec)

/-! ### Keys and the halt -/

/-- Settles O25: no instruction is a writer of KEY or QUIT, and neither is the cycle. -/
theorem noStepWritesKeysOrQuit : Obligations.NoStepWritesKeysOrQuit := by
  intro s t hcall hstep
  refine step_keeps (P := fun u => u.keys = s.keys ∧ u.quit = s.quit) hstep (fun u hu => ?atEnd) (fun _ => ⟨rfl, rfl⟩)
    (fun _ _ _ => ⟨rfl, rfl⟩) (fun i u hnext hexec => ?exec)
  case atEnd => rwa [State.endStep_keys, State.endStep_quit]
  case exec =>
    obtain ⟨-, -, -, -, -, -, -, -, -, -, hkept⟩ :=
      eachPieceOfStateHasItsWriters i s u (not_isOverflowingCall hcall hnext) hexec
    exact hkept

/-! ### Errors, the tick and redraw -/

/-- An error, and the end of its transition: the tick and the outputs alone. -/
theorem raised_endStep {s : State} {e : StepOutcome} (h : e.isError = true) :
    (s.raised e).endStep = { s with
      outcome := e, redraw := false, beep := decide (s.st.toNat = 1), dt := ticked s.dt, st := ticked s.st, rndIn := none,
      rndCount := s.rndCount + 1 } := by
  rw [endStep_ticks]
  · rfl
  · rintro rfl
    cases h

/-- An instruction that answers an error has raised it and done nothing else. -/
theorem eq_raised_of_answers {i : Instr} {s t : State} (h : Answers i s (.next t)) (herr : t.outcome.isError = true) :
    t = s.raised t.outcome := by
  cases h with
  | completes h => rw [h.outcome] at herr; cases herr
  | errs => rfl
  | suspends => cases herr
  | overflows p nnn _ ht =>
    rcases applyOverflow_cases ht with rfl | ⟨f, hok, -, -⟩
    · rfl
    · rw [hok] at herr; cases herr

/-- Settles O16: in each case of a step that ends in an error, the state is the one before it with the error raised, and the
transition then ends. -/
theorem aStepThatErrsChangesOnlyTheTick : Obligations.AStepThatErrsChangesOnlyTheTick := by
  intro s t hstep herr
  have key : t = (s.raised t.outcome).endStep := by
    obtain ⟨-, ⟨x, k, -, -, rfl⟩ | ⟨-, -, rfl⟩ | ⟨w, -, -, -, -, rfl⟩ | ⟨i, u, -, hexec, rfl⟩⟩ := step_cases hstep
    · simp [StepOutcome.isError] at herr
    · simp
    · simp
    · rw [State.endStep_outcome] at herr ⊢
      rw [← eq_raised_of_answers (answers_of_exec hexec) herr]
  rw [raised_endStep herr] at key
  exact key

/-- Redraw and outcome after an instruction: both are those of R127. -/
theorem redraw_iff_of_answers {i : Instr} {s t : State} (h : Answers i s (.next t)) :
    t.redraw = true ↔ t.outcome = .ok ∧ draws i = true := by
  cases h with
  | completes h => simp [h.redraw, h.outcome]
  | errs h =>
    simp only [State.raised_redraw, State.raised_outcome, Bool.false_eq_true, false_iff]
    rintro ⟨rfl, -⟩
    cases h
  | suspends => simp
  | overflows p nnn hcall ht =>
    obtain ⟨-, _, rfl⟩ := hcall
    have hredraw : t.redraw = false := by
      rcases applyOverflow_cases ht with rfl | ⟨f, -, hredraw, -⟩
      · rfl
      · exact hredraw
    simp [hredraw, draws]

/-- Two instructions that run next in one state are the same. -/
theorem RunsNext.unique {i j : Instr} {s : State} (hi : RunsNext i s) (hj : RunsNext j s) : i = j := by
  obtain ⟨-, -, -, hi⟩ := hi
  obtain ⟨-, -, -, hj⟩ := hj
  exact Option.some.inj (hi.symm.trans hj)

theorem draws_iff_of_runsNext {i : Instr} {s : State} (hi : RunsNext i s) :
    draws i = true ↔ RunsNext .cls s ∨ ∃ x y n, RunsNext (.drw x y n) s := by
  rw [draws_iff]
  constructor
  · rintro (rfl | ⟨x, y, n, rfl⟩)
    · exact .inl hi
    · exact .inr ⟨x, y, n, hi⟩
  · rintro (h | ⟨x, y, n, h⟩)
    · exact .inl (hi.unique h)
    · exact .inr ⟨x, y, n, hi.unique h⟩

/-- A transition that runs no instruction runs no drawing one. -/
theorem not_draws_of_not_runsNext {s : State} (h : ∀ i, ¬RunsNext i s) :
    ¬(RunsNext .cls s ∨ ∃ x y n, RunsNext (.drw x y n) s) := by
  rintro (h' | ⟨x, y, n, h'⟩) <;> exact h _ h'

/-- Settles O18: a step that runs no instruction asserts no redraw, and one that runs an instruction leaves the redraw and the
outcome of its answer. -/
theorem redrawExactlyAfterADrawingStep : Obligations.RedrawExactlyAfterADrawingStep := by
  intro s t hstep
  have running_nothing (ht : t.redraw = false) (h : ∀ i, ¬RunsNext i s) :
      t.redraw = true ↔ t.outcome = .ok ∧ (RunsNext .cls s ∨ ∃ x y n, RunsNext (.drw x y n) s) := by
    simp [ht, not_draws_of_not_runsNext h]
  obtain ⟨-, ⟨x, k, hw, -, rfl⟩ | ⟨-, hpc, rfl⟩ | ⟨w, -, -, rfl, hnone, rfl⟩ | ⟨i, u, hnext, hexec, rfl⟩⟩ :=
    step_cases hstep
  · refine running_nothing (by simp) fun i ⟨_, hw', _, _⟩ => ?_
    rw [hw] at hw'; cases hw'
  · refine running_nothing (by simp) fun i ⟨_, _, hle, _⟩ => ?_
    omega
  · refine running_nothing (by simp) fun i ⟨_, _, _, hsome⟩ => ?_
    rw [hnone] at hsome; cases hsome
  · rw [State.endStep_redraw, State.endStep_outcome, redraw_iff_of_answers (answers_of_exec hexec),
      draws_iff_of_runsNext hnext]

/-- Only FX0A suspends. -/
theorem outcome_ne_suspended {i : Instr} {s t : State} (hi : ∀ x, i ≠ .ldVK x) (h : Answers i s (.next t)) :
    t.outcome ≠ .suspended := by
  cases h with
  | completes h => simp [h.outcome]
  | errs h =>
    rintro rfl
    cases h
  | suspends x h => exact absurd h (hi x)
  | overflows p nnn _ ht => rcases applyOverflow_cases ht with rfl | ⟨f, hok, -, -⟩ <;> simp [*]

/-- The outputs of the tick at the end of a transition that is not suspended. -/
theorem endStep_timers {s : State} (h : s.outcome ≠ .suspended) :
    s.endStep.dt = ticked s.dt ∧ s.endStep.st = ticked s.st ∧ (s.endStep.beep = true ↔ s.st.toNat = 1) := by
  rw [endStep_ticks h]
  exact ⟨rfl, rfl, decide_eq_true_iff⟩

theorem eq_endStep_of_runsNext {i : Instr} {s t : State} (hnext : RunsNext i s) (hstep : step s = .next t) :
    ∃ u, exec i s = .next u ∧ t = u.endStep := by
  rw [step_of_runsNext hnext] at hstep
  exact mapNext_eq_next hstep

/-- Settles O17: such an instruction writes neither timer and does not suspend, so its transition ends with the one tick. -/
theorem everyStepTicksTheTimersOnce : Obligations.EveryStepTicksTheTimersOnce := by
  intro i s t hnext hi hcall hstep
  obtain ⟨u, hexec, rfl⟩ := eq_endStep_of_runsNext hnext hstep
  obtain ⟨-, -, -, -, -, -, -, hdt, hst, -⟩ := eachPieceOfStateHasItsWriters i s u hcall hexec
  rw [← hdt fun x => (hi x).1, ← hst fun x => (hi x).2.1]
  exact endStep_timers (outcome_ne_suspended (fun x => (hi x).2.2) (answers_of_exec hexec))

end Sys2Proof.Machine
end

section
/-! PROOFS. The step (40_cycle.md, 20_memory.md, 60_exceptions.md): what the cycle answers in each of its cases, with the end of the
transition written out. -/

namespace Sys2Proof.Machine

/-! ### An instruction that runs -/

/-- Settles O11: the instruction and then the end of its transition, which ticks unless the outcome is suspended. -/
theorem stepRunsTheDecodedInstruction : Obligations.StepRunsTheDecodedInstruction := by
  intro i s t hnext hexec
  rw [step_of_runsNext hnext, hexec, mapNext_next]
  split
  next h => rw [endStep_suspended h]
  next h => rw [endStep_ticks h]

/-! ### Errors of the cycle -/

/-- The step at a word no row selects (R261). -/
theorem step_of_invalidWord {s : State} {w : Word} (hq : s.quit = false) (hw : s.waiting = none) (hpc : s.pc.toNat + 1 ≤ 4095)
    (hword : w = wordOfBytes (s.mem.byteAt s.pc.toNat) (s.mem.byteAt (s.pc.toNat + 1))) (hnone : dispatch w = none) :
    step s = .next (s.raised (.invalidOpcode w)).endStep := by
  rw [step_eq, cycle_running hq hw, fetchAndRun, fetch_of_le hpc, ← hword]
  simp only [runWord, hnone]

/-- Settles O12: the state after the error has the same QUIT, WAIT, PC and MEM, so its own step meets the same word. -/
theorem anInvalidWordIsReportedAndChangesNothing : Obligations.AnInvalidWordIsReportedAndChangesNothing := by
  intro s w hq hw hpc hword hnone
  have hagain : step (s.raised (.invalidOpcode w)).endStep =
      .next ((s.raised (.invalidOpcode w)).endStep.raised (.invalidOpcode w)).endStep :=
    step_of_invalidWord (by simpa using hq) (by simpa using hw) (by simpa using hpc) (by simpa using hword) hnone
  exact ⟨_, _, step_of_invalidWord hq hw hpc hword hnone, raised_endStep rfl, hagain, by simp, by simp⟩

/-- Settles O13: the fetch reports the lowest invalid address of its two, and the transition ends. -/
theorem aFetchBeyondMemoryIsReported : Obligations.AFetchBeyondMemoryIsReported := by
  intro s hq hw hpc
  have hlowest : max s.pc.toNat 4096 = if 4095 < s.pc.toNat then s.pc.toNat else 4096 := by
    split <;> omega
  rw [step_eq, cycle_running hq hw, fetchAndRun, fetch_of_gt hpc, hlowest]
  exact congrArg _ (raised_endStep rfl)

/-! ### A halted or a waiting core -/

/-- Settles O14: QUIT is looked at before anything else. -/
theorem aQuitCoreHasNoTransition : Obligations.AQuitCoreHasNoTransition := fun _ _ hq => ⟨cycle_quit hq, cycle_quit hq⟩

theorem step_of_noEdge {s : State} {x : Reg} (hq : s.quit = false) (hw : s.waiting = some x) (he : s.edge = none) :
    step s = .fault .keyWaitHold := by
  rw [step_eq, cycle_waiting hq hw]
  simp only [resumeKeyWait, he]

theorem step_of_edge {s : State} {x : Reg} {k : Key} (hq : s.quit = false) (hw : s.waiting = some x)
    (he : s.edge = some k) : step s = .next (s.completeKeyWait x k).endStep := by
  rw [step_eq, cycle_waiting hq hw]
  simp only [resumeKeyWait, he]

/-- The V registers after a completed key wait. -/
theorem onlyRegisterIs_completeKeyWait (s : State) (x : Reg) (k : Key) :
    OnlyRegisterIs x (BitVec.ofNat 8 k.val) s (s.completeKeyWait x k).endStep :=
  onlyRegisterIs_of_setReg (State.endStep_v _)

/-- Settles O15: the two cases of a waiting core; the completion ends with a tick. -/
theorem aWaitingCoreHoldsOrCompletes : Obligations.AWaitingCoreHoldsOrCompletes := by
  intro s x hq hw
  constructor
  · exact step_of_noEdge hq hw
  · intro k he
    refine ⟨_, step_of_edge hq hw he, onlyRegisterIs_completeKeyWait s x k, ?_, ?_⟩
    · exact pcAdvancedBy_of_add (w := 2) (State.endStep_pc _) rfl
    · rw [endStep_ticks (by simp)]
      rfl

/-! ### The state after reset -/

theorem resetMemory_byteAt (a : Nat) : State.reset.mem.byteAt a = if h : a < 80 then font[a] else 0 := rfl

/-- A register, stack entry or key of a register file filled with one value. -/
theorem get_replicate {α : Type} {n : Nat} (b : α) (k : Fin n) : (Vector.replicate n b).get k = b := by
  rw [Vector.get_eq_getElem, Vector.getElem_replicate]

/-- Settles O22: the values of the table, read off the reset state. -/
theorem resetHoldsTheTableValues : Obligations.ResetHoldsTheTableValues := by
  have hstack (k : Fin 16) : State.reset.stack.get k = 0 := get_replicate 0 k
  refine ⟨⟨Memory.wf_nil, fun _ => rfl⟩, ⟨by decide, fun k => ?_, fun h => absurd rfl h⟩, rfl, rfl, rfl, rfl, rfl, rfl, rfl, rfl,
    get_replicate 0, hstack, get_replicate false, pixel_cleared, resetMemory_byteAt⟩
  rw [hstack]
  decide

/-! ### What a step does not read -/

/-- The state with the outputs and the host's random byte replaced: the model's own fields that are inputs or outputs of one
transition (log entries 3 and 4). -/
def State.withOutputs (s : State) (o : StepOutcome) (r b : Bool) (rnd : Option Byte) : State :=
  { s with outcome := o, redraw := r, beep := b, rndIn := rnd }

/-- What is left of that replacement after an instruction: every answer sets the outcome and redraw. -/
def State.withBeepAndRnd (s : State) (b : Bool) (rnd : Option Byte) : State :=
  { s with beep := b, rndIn := rnd }

/-- The end of a transition sets the beep and uses up the random byte. -/
theorem endStep_withBeepAndRnd (s : State) (b : Bool) (rnd : Option Byte) : (s.withBeepAndRnd b rnd).endStep = s.endStep := by
  by_cases h : s.outcome = .suspended
  · rw [endStep_suspended h, endStep_suspended (s := s.withBeepAndRnd b rnd) h]
    rfl
  · rw [endStep_ticks h, endStep_ticks (s := s.withBeepAndRnd b rnd) h]
    rfl

/-- The answer `r'` is `r` with the beep and the random byte replaced. -/
abbrev SameButBeepAndRnd (b : Bool) (rnd : Option Byte) (r' r : Result) : Prop :=
  r' = mapNext (State.withBeepAndRnd · b rnd) r

theorem sameButBeepAndRnd_orOutOfBounds {α : Type} (res : Except Nat α) {s : State} {k' k : α → Result} {o : StepOutcome}
    {r b : Bool} {rnd : Option Byte} (h : ∀ v, SameButBeepAndRnd b rnd (k' v) (k v)) :
    SameButBeepAndRnd b rnd (orOutOfBounds res (s.withOutputs o r b rnd) k') (orOutOfBounds res s k) := by
  cases res with
  | ok v => exact h v
  | error a => rfl

theorem sameButBeepAndRnd_withKey (x : Reg) {s : State} {k' k : Bool → Result} {o : StepOutcome} {r b : Bool}
    {rnd : Option Byte} (h : ∀ p, SameButBeepAndRnd b rnd (k' p) (k p)) :
    SameButBeepAndRnd b rnd (withKey x (s.withOutputs o r b rnd) k') (withKey x s k) := by
  by_cases hcode : (s.reg x).toNat < 16
  · rw [withKey_of_lt hcode, withKey_of_lt (s := s.withOutputs o r b rnd) hcode]
    exact h _
  · rw [withKey_of_ge (Nat.le_of_not_lt hcode), withKey_of_ge (s := s.withOutputs o r b rnd) (Nat.le_of_not_lt hcode)]
    rfl

theorem sameButBeepAndRnd_ret (s : State) (o : StepOutcome) (r b : Bool) (rnd : Option Byte) :
    SameButBeepAndRnd b rnd (execRet (s.withOutputs o r b rnd)) (execRet s) := by
  by_cases h : 0 < s.sp.val
  · rw [execRet, execRet, if_pos h, if_pos (show 0 < (s.withOutputs o r b rnd).sp.val from h)]
    rfl
  · rw [execRet, execRet, if_neg h, if_neg (show ¬0 < (s.withOutputs o r b rnd).sp.val from h)]
    rfl

theorem sameButBeepAndRnd_callWith (p : OverflowPolicy) (nnn : BitVec 12) (s : State) (o : StepOutcome) (r b : Bool)
    (rnd : Option Byte) : SameButBeepAndRnd b rnd (callWith p nnn (s.withOutputs o r b rnd)) (callWith p nnn s) := by
  by_cases h : s.sp.val < 16
  · rw [callWith_of_lt h, callWith_of_lt (s := s.withOutputs o r b rnd) h]
    rfl
  · have hfull : s.sp.val = 16 := by omega
    rw [callWith_of_full hfull, callWith_of_full (s := s.withOutputs o r b rnd) hfull]
    cases p <;> rfl

/-- No instruction reads the outputs, and none but CXNN the random byte: one case for each form. -/
theorem exec_withOutputs {i : Instr} {s : State} {rnd : Option Byte} (o : StepOutcome) (r b : Bool)
    (hrnd : (∃ x nn, i = .rnd x nn) → rnd = s.rndIn) :
    SameButBeepAndRnd b rnd (exec i (s.withOutputs o r b rnd)) (exec i s) := by
  cases i with
  | ret => exact sameButBeepAndRnd_ret s o r b rnd
  | call nnn => exact sameButBeepAndRnd_callWith _ nnn s o r b rnd
  | skp x => rw [exec_skp, exec_skp]; exact sameButBeepAndRnd_withKey x fun _ => rfl
  | sknp x => rw [exec_sknp, exec_sknp]; exact sameButBeepAndRnd_withKey x fun _ => rfl
  | ldB | storeRegs => exact sameButBeepAndRnd_orOutOfBounds (s.mem.writeBlock _ _) fun _ => rfl
  | loadRegs | drw => exact sameButBeepAndRnd_orOutOfBounds (s.mem.readBlock _ _) fun _ => rfl
  | rnd x nn =>
    rw [hrnd ⟨x, nn, rfl⟩]
    rfl
  | _ => rfl

theorem runsNext_of_fetch {i : Instr} {s : State} {w : Word} (hq : s.quit = false) (hw : s.waiting = none)
    (hfetch : s.fetch = .ok w) (hd : dispatch w = some i) : RunsNext i s := by
  rcases Memory.fetch_cases s.mem s.pc.toNat with ⟨hpc, h⟩ | ⟨-, h⟩
  · cases h.symm.trans hfetch
    exact ⟨hq, hw, hpc, hd⟩
  · cases h.symm.trans hfetch

/-- A running core: the fetch is the same, an error or an instruction answers the same but for the beep and the random byte, and
the end of the transition sets these. -/
theorem fetchAndRun_withOutputs {s : State} {rnd : Option Byte} (o : StepOutcome) (r b : Bool) (hq : s.quit = false)
    (hw : s.waiting = none) (hrnd : (∃ x nn, RunsNext (.rnd x nn) s) → rnd = s.rndIn) :
    fetchAndRun (s.withOutputs o r b rnd) = fetchAndRun s := by
  have hraised (e : StepOutcome) : ((s.withOutputs o r b rnd).raised e).endStep = (s.raised e).endStep :=
    endStep_withBeepAndRnd (s.raised e) b rnd
  have hsame : (s.withOutputs o r b rnd).fetch = s.fetch := rfl
  rw [fetchAndRun, fetchAndRun, hsame]
  cases hfetch : s.fetch with
  | error a => exact congrArg Host.Outcome.next (hraised _)
  | ok w =>
    simp only [runWord]
    cases hd : dispatch w with
    | none => exact congrArg Host.Outcome.next (hraised _)
    | some i =>
      have hnext := runsNext_of_fetch hq hw hfetch hd
      obtain ⟨t, ht⟩ := noInstructionStopsTheMachine i s
      have hexec := exec_withOutputs o r b (i := i) (s := s) (rnd := rnd) fun ⟨x, nn, hi⟩ => hrnd ⟨x, nn, hi ▸ hnext⟩
      show mapNext State.endStep (exec i (s.withOutputs o r b rnd)) = mapNext State.endStep (exec i s)
      rw [hexec, ht]
      exact congrArg Host.Outcome.next (endStep_withBeepAndRnd t b rnd)

/-- A core transition reads neither the outputs nor, unless it runs CXNN, the random byte. -/
theorem cycle_withOutputs {s : State} {rnd : Option Byte} (o : StepOutcome) (r b : Bool)
    (hrnd : (∃ x nn, RunsNext (.rnd x nn) s) → rnd = s.rndIn) : cycle (s.withOutputs o r b rnd) = cycle s := by
  cases hq : s.quit with
  | true => rw [cycle_quit hq, cycle_quit (s := s.withOutputs o r b rnd) hq]
  | false =>
    cases hw : s.waiting with
    | none =>
      rw [cycle_running hq hw, cycle_running (s := s.withOutputs o r b rnd) hq hw]
      exact fetchAndRun_withOutputs o r b hq hw hrnd
    | some x =>
      rw [← step_eq, ← step_eq]
      cases he : s.edge with
      | none => rw [step_of_noEdge hq hw he, step_of_noEdge (s := s.withOutputs o r b rnd) hq hw he]
      | some k =>
        rw [step_of_edge hq hw he, step_of_edge (s := s.withOutputs o r b rnd) hq hw he]
        exact congrArg _ (endStep_withBeepAndRnd (s.completeKeyWait x k) b rnd)

/-- Settles O19: the outputs replaced, and the random byte as it was. -/
theorem noStepReadsTheOutputs : Obligations.NoStepReadsTheOutputs := fun s o r b =>
  cycle_withOutputs (s := s) (rnd := s.rndIn) o r b fun _ => rfl

/-- Settles O20: the random byte replaced, and the outputs as they were. -/
theorem onlyRndReadsTheRandomByte : Obligations.OnlyRndReadsTheRandomByte := by
  intro s a b hrnd
  have hbyte (c : Byte) : coreStep c s = cycle s :=
    cycle_withOutputs (rnd := some c) s.outcome s.redraw s.beep fun ⟨x, nn, h⟩ => absurd h (hrnd x nn)
  rw [hbyte a, hbyte b]

end Sys2Proof.Machine
end

section
/-! PROOFS. The call stack and the frames of the jumps, skips and loads (41_control.md, 00_scope.md section 5): each instruction is
one of the operand forms, and the form says what is new. -/

namespace Sys2Proof.Machine

/-! ### The call stack (R142, R145) -/

/-- An instruction that only advances. -/
theorem onlyPcChanged_of_advance {i : Instr} {s : State} (h : exec i s = done (s.advance 2)) :
    ∃ t, exec i s = .next t ∧ OnlyPcChanged s t ∧ PcAdvancedBy 2 s t :=
  ⟨_, h, rfl, pcAdvancedBy_of_add (w := 2) rfl rfl⟩

theorem exec_ret_of_empty {s : State} (h : s.sp.val = 0) : exec .ret s = done (s.advance 2) :=
  if_neg (by omega)

/-- 00EE with an entry on the stack. -/
theorem exec_ret_of_entry {s : State} {k : Fin 16} (h : s.sp.val = k.val + 1) :
    exec .ret s = done { s with pc := s.stack.get k, sp := k.castSucc } := by
  have htop : s.top = s.stack.get k := congrArg s.stack.get (Fin.ext (by simp [h]))
  have hpopped : s.popped = { s with sp := k.castSucc } := by
    rw [State.popped]
    congr 1
    exact Fin.ext (by simp [h])
  rw [← htop]
  show execRet s = _
  rw [execRet, if_pos (by omega), hpopped]
  rfl

/-- 2NNN with room, under every policy. -/
theorem exec_call_of_room {nnn : BitVec 12} {s : State} {k : Fin 16} (h : s.sp.val = k.val) :
    exec (.call nnn) s = done { s with pc := zext12 nnn, sp := k.succ, stack := s.stack.set k.val (s.pc + 2) k.isLt } := by
  have hroom : s.sp.val < 16 := by omega
  have hpush : s.push (s.pc + 2) hroom = { s with sp := k.succ, stack := s.stack.set k.val (s.pc + 2) k.isLt } := by
    rw [State.push]
    congr 1
    · exact Fin.ext (by simp [h])
    · simp only [h]
  show callWith _ nnn s = _
  rw [callWith_of_lt hroom, hpush]
  rfl

/-- Settles O29: both complete by the advance alone. -/
theorem noOpsOnlyAdvancePc : Obligations.NoOpsOnlyAdvancePc := fun _ _ =>
  ⟨onlyPcChanged_of_advance rfl, fun hempty => onlyPcChanged_of_advance (exec_ret_of_empty hempty)⟩

/-- Settles O30: with SP = k + 1 the entry popped is the k-th. -/
theorem returnPopsTheCallStack : Obligations.ReturnPopsTheCallStack := fun _ _ hsp =>
  ⟨_, exec_ret_of_entry hsp, rfl, rfl, rfl, rfl⟩

/-- Settles O31: the one entry written is the k-th, by PC + 2. -/
theorem callPushesTheReturnAddress : Obligations.CallPushesTheReturnAddress := by
  intro nnn s k hsp
  refine ⟨_, exec_call_of_room hsp, zext12_toNat nnn, rfl, ?_, fun j hj => ?_, rfl⟩
  · rw [vector_get_set, if_pos rfl, BitVec.toNat_add]
    rfl
  · rw [vector_get_set, if_neg hj]

/-- Settles O32: the machine's CALL is that of the configured policy; with SP = 16 each of the two values is its own answer. -/
theorem anOverflowingCallFollowsThePolicy : Obligations.AnOverflowingCallFollowsThePolicy := by
  constructor
  · exact ⟨Config.stackOverflowPolicy State State.legal, fun _ _ => rfl⟩
  · intro nnn s hsp
    exact ⟨callWith_of_full hsp, fun f keeps => ⟨_, callWith_of_full hsp, rfl, rfl, rfl, rfl⟩⟩

/-- Settles O33: the RET pops the entry the CALL pushed. -/
theorem callThenReturnComesBack : Obligations.CallThenReturnComesBack := by
  intro nnn s t hroom hcall
  obtain ⟨k, hk⟩ : ∃ k : Fin 16, s.sp.val = k.val := ⟨⟨s.sp.val, hroom⟩, rfl⟩
  rw [exec_call_of_room hk] at hcall
  cases hcall
  refine ⟨_, exec_ret_of_entry (k := k) rfl, ?_, Fin.ext hk.symm, rfl⟩
  exact pcAdvancedBy_of_add (w := 2) ((vector_get_set _ k k _).trans (if_pos rfl)) rfl

/-! ### Frames (R9) -/

theorem onlyPcChanged_of_skipsWhen {i : Instr} {c : Prop} {s t : State} (h : SkipsWhen i c s) (hexec : exec i s = .next t) :
    OnlyPcChanged s t := by
  obtain ⟨u, hu, hframe, -⟩ := h
  cases hu.symm.trans hexec
  exact hframe

theorem onlyRegistersChanged_of_setsRegister {i : Instr} {x : Reg} {n : Nat} {s t : State} (h : SetsRegister i x n s)
    (hexec : exec i s = .next t) : OnlyRegistersChanged s t ∧ ∀ r, r ≠ x → t.reg r = s.reg r := by
  obtain ⟨u, hu, hregs, -, hframe⟩ := h
  cases hu.symm.trans hexec
  exact ⟨hframe, fun r hr => hregs.reg_of_ne hr⟩

theorem onlyIndexChanged_of_exec {i : Instr} {w : Word} {s t : State} (h : exec i s = loadIndex w s)
    (hexec : exec i s = .next t) : OnlyIndexChanged s t := by
  obtain ⟨u, hu, -, -, hframe⟩ := onlyIndexChanged_of_loadIndex h
  cases hu.symm.trans hexec
  exact hframe

/-- Settles O36: each list is one frame, and each of its instructions is of the form that has it. -/
theorem jumpsSkipsAndLoadsChangeNothingElse : Obligations.JumpsSkipsAndLoadsChangeNothingElse := by
  intro x y nn nnn i s t hexec
  simp only [List.mem_cons, List.not_mem_nil, or_false]
  refine ⟨?_, ?_, ?_⟩
  · rintro (rfl | rfl | rfl | rfl | rfl | rfl)
    · cases hexec; rfl
    · cases hexec; rfl
    · exact onlyPcChanged_of_skipsWhen (skipsWhen_of_skipIf rfl beq_iff_eq) hexec
    · exact onlyPcChanged_of_skipsWhen (skipsWhen_of_skipIf rfl bne_iff_ne) hexec
    · exact onlyPcChanged_of_skipsWhen (skipsWhen_of_skipIf rfl beq_iff_eq) hexec
    · exact onlyPcChanged_of_skipsWhen (skipsWhen_of_skipIf rfl bne_iff_ne) hexec
  · rintro (rfl | rfl)
    · exact onlyRegistersChanged_of_setsRegister (setsRegister_ldImm x nn s) hexec
    · exact onlyRegistersChanged_of_setsRegister (setsRegister_addImm x nn s) hexec
  · rintro (rfl | rfl)
    · exact onlyIndexChanged_of_exec rfl hexec
    · exact onlyIndexChanged_of_exec rfl hexec

end Sys2Proof.Machine
end

section
/-! PROOFS. Registers, ALU and random (42_alu.md): the values of copies, logic and flag arithmetic as naturals; with VF as an operand
the result reads the flag just written (D3). -/

namespace Sys2Proof.Machine

/-! ### Copies and logic (R173 to R176) -/

theorem ofNat_or_toNat (a b : Byte) : a ||| b = BitVec.ofNat 8 (a.toNat ||| b.toNat) := by
  rw [← BitVec.toNat_or, BitVec.ofNat_toNat, BitVec.setWidth_eq]

theorem ofNat_and_toNat (a b : Byte) : a &&& b = BitVec.ofNat 8 (a.toNat &&& b.toNat) := by
  rw [← BitVec.toNat_and, BitVec.ofNat_toNat, BitVec.setWidth_eq]

theorem ofNat_xor_toNat (a b : Byte) : a ^^^ b = BitVec.ofNat 8 (a.toNat ^^^ b.toNat) := by
  rw [← BitVec.toNat_xor, BitVec.ofNat_toNat, BitVec.setWidth_eq]

/-- Settles O37: four register loads, each of the byte of the value its rule names. -/
theorem copyAndLogicSetOneRegister : Obligations.CopyAndLogicSetOneRegister := fun x y s =>
  ⟨setsRegister_of_loadReg rfl (by simp), setsRegister_of_loadReg rfl (ofNat_or_toNat (s.reg x) (s.reg y)),
    setsRegister_of_loadReg rfl (ofNat_and_toNat (s.reg x) (s.reg y)),
    setsRegister_of_loadReg rfl (ofNat_xor_toNat (s.reg x) (s.reg y))⟩

/-! ### Flag arithmetic (R177 to R181) -/

/-- Settles O38: with no operand VF the result reads the operands as they were. -/
theorem flagArithmeticWithoutVfOperands : Obligations.FlagArithmeticWithoutVfOperands := by
  intro x y s a b hx ha hb
  subst ha hb
  refine ⟨fun hy => ⟨?_, ?_, ?_⟩, ?_, ?_⟩
  · refine setsRegisterAndFlag_of_flagThenResult rfl hx (carryFlag_eq _ _) ?_
    rw [if_neg hy, add8_eq]
  · refine setsRegisterAndFlag_of_flagThenResult rfl hx (noBorrowFlag_eq _ _) ?_
    rw [if_neg hy, sub8_eq]
  · refine setsRegisterAndFlag_of_flagThenResult (exec_subn x y s) hx (noBorrowFlag_eq _ _) ?_
    rw [if_neg hy, sub8_eq]
  · exact setsRegisterAndFlag_of_flagThenResult (exec_shr x y s) hx (shiftedOutRight_eq _) (shr8_eq _)
  · exact setsRegisterAndFlag_of_flagThenResult (exec_shl x y s) hx (rawTopBit_eq _) (shl8_eq _)

/-! ### Flag arithmetic with VF as an operand (R183) -/

theorem carryFlag_toNat (a b : Byte) : (carryFlag a b).toNat = if 255 < a.toNat + b.toNat then 1 else 0 := by
  rw [carryFlag_eq]
  split <;> rfl

theorem noBorrowFlag_toNat (a b : Byte) : (noBorrowFlag a b).toNat = if a.toNat < b.toNat then 0 else 1 := by
  rw [noBorrowFlag_eq]
  split <;> rfl

theorem shr8_shiftedOutRight (a : Byte) : shr8 (shiftedOutRight a) = BitVec.ofNat 8 0 := by
  rw [shr8_eq, shiftedOutRight_eq, BitVec.toNat_ofNat]
  congr 1
  omega

theorem shl8_rawTopBit (a : Byte) : shl8 (rawTopBit a) = BitVec.ofNat 8 0 := by
  rw [shl8_eq, rawTopBit_eq]
  split <;> rfl

theorem noBorrowFlag_self (a : Byte) : noBorrowFlag a a = 1 := by
  rw [noBorrowFlag_eq, if_neg (lt_irrefl _)]
  rfl

/-- X is VF: VF keeps the result, computed from the flag. -/
theorem flagArithmetic_into_vf (y : Reg) (s : State) (hy : y ≠ VF) :
    SetsRegister (.addReg VF y) VF
      (((if 255 < (s.reg VF).toNat + (s.reg y).toNat then 1 else 0) + (s.reg y).toNat) % 256) s ∧
    SetsRegister (.subReg VF y) VF
      ((256 + (if (s.reg VF).toNat < (s.reg y).toNat then 0 else 1) - (s.reg y).toNat) % 256) s ∧
    SetsRegister (.shr VF y) VF 0 s ∧
    SetsRegister (.subn VF y) VF
      ((256 + (s.reg y).toNat - (if (s.reg y).toNat < (s.reg VF).toNat then 0 else 1)) % 256) s ∧
    SetsRegister (.shl VF y) VF 0 s := by
  refine ⟨?_, ?_, ?_, ?_, ?_⟩
  · refine setsRegister_of_flagThenResult (flag := carryFlag) (result := add8) rfl rfl ?_
    rw [if_neg hy, add8_eq, carryFlag_toNat]
  · refine setsRegister_of_flagThenResult (flag := noBorrowFlag) (result := sub8) rfl rfl ?_
    rw [if_neg hy, sub8_eq, noBorrowFlag_toNat]
  · exact setsRegister_of_flagThenResult (exec_shr VF y s) rfl (shr8_shiftedOutRight _)
  · refine setsRegister_of_flagThenResult (exec_subn VF y s) rfl ?_
    rw [if_neg hy, sub8_eq, noBorrowFlag_toNat]
  · exact setsRegister_of_flagThenResult (exec_shl VF y s) rfl (shl8_rawTopBit _)

/-- Y is VF and X is not: the result reads the flag in the place of Y. -/
theorem flagArithmetic_with_vf (x : Reg) (s : State) (hx : x ≠ VF) :
    SetsRegisterAndFlag (.addReg x VF) x
      (((s.reg x).toNat + (if 255 < (s.reg x).toNat + (s.reg VF).toNat then 1 else 0)) % 256)
      (if 255 < (s.reg x).toNat + (s.reg VF).toNat then 1 else 0) s ∧
    SetsRegisterAndFlag (.subReg x VF) x
      ((256 + (s.reg x).toNat - (if (s.reg x).toNat < (s.reg VF).toNat then 0 else 1)) % 256)
      (if (s.reg x).toNat < (s.reg VF).toNat then 0 else 1) s ∧
    SetsRegisterAndFlag (.shr x VF) x ((s.reg x).toNat / 2) ((s.reg x).toNat % 2) s ∧
    SetsRegisterAndFlag (.subn x VF) x
      ((256 + (if (s.reg VF).toNat < (s.reg x).toNat then 0 else 1) - (s.reg x).toNat) % 256)
      (if (s.reg VF).toNat < (s.reg x).toNat then 0 else 1) s ∧
    SetsRegisterAndFlag (.shl x VF) x ((s.reg x).toNat * 2 % 256) (if 128 ≤ (s.reg x).toNat then 128 else 0) s := by
  refine ⟨?_, ?_, ?_, ?_, ?_⟩
  · refine setsRegisterAndFlag_of_flagThenResult rfl hx (carryFlag_eq _ _) ?_
    rw [if_pos rfl, ← carryFlag_eq, add8_eq, carryFlag_toNat]
  · refine setsRegisterAndFlag_of_flagThenResult rfl hx (noBorrowFlag_eq _ _) ?_
    rw [if_pos rfl, ← noBorrowFlag_eq, sub8_eq, noBorrowFlag_toNat]
  · exact setsRegisterAndFlag_of_flagThenResult (exec_shr x VF s) hx (shiftedOutRight_eq _) (shr8_eq _)
  · refine setsRegisterAndFlag_of_flagThenResult (exec_subn x VF s) hx (noBorrowFlag_eq _ _) ?_
    rw [if_pos rfl, ← noBorrowFlag_eq, sub8_eq, noBorrowFlag_toNat]
  · exact setsRegisterAndFlag_of_flagThenResult (exec_shl x VF s) hx (rawTopBit_eq _) (shl8_eq _)

/-- Both operands are VF: the result is that of the flag with itself. -/
theorem flagArithmetic_of_vf (s : State) :
    SetsRegister (.addReg VF VF) VF (2 * (if 255 < 2 * (s.reg VF).toNat then 1 else 0)) s ∧
    SetsRegister (.subReg VF VF) VF 0 s ∧ SetsRegister (.shr VF VF) VF 0 s ∧ SetsRegister (.subn VF VF) VF 0 s ∧
    SetsRegister (.shl VF VF) VF 0 s := by
  refine ⟨?_, ?_, ?_, ?_, ?_⟩
  · refine setsRegister_of_flagThenResult (flag := carryFlag) (result := add8) rfl rfl ?_
    rw [if_pos rfl, add8_eq, carryFlag_toNat, ← Nat.two_mul, ← Nat.two_mul]
    split <;> rfl
  · refine setsRegister_of_flagThenResult (flag := noBorrowFlag) (result := sub8) rfl (noBorrowFlag_self _) ?_
    rw [if_pos rfl]
    rfl
  · exact setsRegister_of_flagThenResult (exec_shr VF VF s) rfl (shr8_shiftedOutRight _)
  · refine setsRegister_of_flagThenResult (exec_subn VF VF s) (noBorrowFlag_self _) ?_
    rw [if_pos rfl]
    rfl
  · exact setsRegister_of_flagThenResult (exec_shl VF VF s) rfl (shl8_rawTopBit _)

/-- Settles O39: the three parts of the table. -/
theorem flagArithmeticWithVfOperands : Obligations.FlagArithmeticWithVfOperands := by
  intro x y s vx vy vf hx hy hvx hvy hvf
  subst hvx hvy hvf
  exact ⟨flagArithmetic_into_vf y s hy, flagArithmetic_with_vf x s hx, flagArithmetic_of_vf s⟩

/-! ### Random (R182) -/

theorem setsRegister_rnd (x : Reg) (nn : Byte) (s : State) : SetsRegister (.rnd x nn) x (s.rnd.toNat &&& nn.toNat) s :=
  setsRegister_of_loadReg rfl (ofNat_and_toNat s.rnd nn)

/-- Settles O40: a CXNN sets its register to the masked byte; in a transition with the host's byte that byte is the one masked, and
the end of the transition keeps V and PC. -/
theorem randomByteIsMaskedIntoTheRegister : Obligations.RandomByteIsMaskedIntoTheRegister := by
  intro x nn s
  refine ⟨setsRegister_rnd x nn s, fun b hnext => ?_⟩
  obtain ⟨t, hexec, hregs, hpc, -⟩ := setsRegister_rnd x nn { s with rndIn := some b }
  have hnext' : RunsNext (.rnd x nn) { s with rndIn := some b } := hnext
  refine ⟨t.endStep, ?_, ?_, ?_⟩
  · rw [coreStep, ← step_eq, step_of_runsNext hnext', hexec, mapNext_next]
  · rw [State.reg_congr (State.endStep_v t), hregs.reg_self, ← ofNat_and_toNat, BitVec.toNat_and]
    rfl
  · rw [PcAdvancedBy, State.endStep_pc]
    exact hpc

end Sys2Proof.Machine
end

section
/-! PROOFS. Index register and memory transfer (43_index_memory.md): blocks inside memory by the laws of the block transfers, blocks
beyond it by the one form of their error. -/

namespace Sys2Proof.Machine

/-! ### Blocks (R206) -/

/-- Settles O8: the check decides between the error and the whole transfer. -/
theorem blocksAreAccessedWholeOrNotAtAll : Obligations.BlocksAreAccessedWholeOrNotAtAll := by
  intro m a bs hpos
  constructor
  · intro hbeyond
    have hbeyond : 4096 < a + bs.length := by omega
    exact ⟨Memory.writeBlock_error hpos hbeyond, Memory.readBlock_error hpos hbeyond⟩
  · intro hinside
    have hinside : a + bs.length ≤ 4096 := by omega
    exact ⟨⟨_, Memory.writeBlock_ok hinside, Memory.byteAt_putBytes m a bs⟩,
      _, Memory.readBlock_ok (.inr hinside), Memory.bytesAt_length m a bs.length, Memory.bytesAt_getD m a bs.length⟩

/-- A store of bytes whose block lies in memory: the bytes, PC and nothing else. -/
theorem exec_of_storeBlock {i : Instr} {bs : List Byte} {s : State} (h : exec i s = storeBlock bs s)
    (hinside : s.i.toNat + bs.length ≤ 4096) :
    ∃ t, exec i s = .next t ∧ OnlyMemoryChanged s t ∧ PcAdvancedBy 2 s t ∧
      ∀ a, t.mem.byteAt a =
        if s.i.toNat ≤ a ∧ a < s.i.toNat + bs.length then bs.getD (a - s.i.toNat) 0 else s.mem.byteAt a :=
  ⟨_, h.trans (storeBlock_ok hinside), rfl, pcAdvancedBy_of_add (w := 2) rfl rfl, Memory.byteAt_putBytes s.mem s.i.toNat bs⟩

/-! ### FX33 (R203) -/

/-- A number below 256 is the value of its byte. -/
theorem toNat_ofNat_byte {n : Nat} (h : n < 256) : (BitVec.ofNat 8 n).toNat = n := by
  rw [BitVec.toNat_ofNat]
  exact Nat.mod_eq_of_lt h

/-- Settles O43: the block is the three digits. -/
theorem bcdWritesThreeDigits : Obligations.BcdWritesThreeDigits := by
  intro x s hinside
  obtain ⟨t, hexec, hframe, hpc, hmem⟩ := exec_of_storeBlock (i := .ldB x) (s := s) (bs := bcdDigits (s.reg x)) rfl
    (show s.i.toNat + 3 ≤ 4096 by omega)
  have hb := (s.reg x).isLt
  have hdigit (k : Nat) (hk : k < 3) : t.mem.byteAt (s.i.toNat + k) = (bcdDigits (s.reg x)).getD k 0 := by
    rw [hmem, if_pos ⟨by omega, Nat.add_lt_add_left hk _⟩, Nat.add_sub_cancel_left]
  refine ⟨t, hexec, hframe, hpc, ?_, ?_, ?_, fun a ha => ?_⟩
  · rw [← Nat.add_zero s.i.toNat, hdigit 0 (by decide)]
    exact toNat_ofNat_byte (by omega)
  · rw [hdigit 1 (by decide)]
    exact toNat_ofNat_byte (by omega)
  · rw [hdigit 2 (by decide)]
    exact toNat_ofNat_byte (by omega)
  · rw [hmem, if_neg]
    show ¬(s.i.toNat ≤ a ∧ a < s.i.toNat + 3)
    omega

/-! ### FX55 and FX65 (R204, R205) -/

/-- Settles O44: the block is the registers up to V[X]. -/
theorem blockStoreWritesTheRegisters : Obligations.BlockStoreWritesTheRegisters := by
  intro x s hinside
  have hlength := State.regsUpTo_length s x
  obtain ⟨t, hexec, hframe, hpc, hmem⟩ := exec_of_storeBlock (i := .storeRegs x) (s := s) (bs := s.regsUpTo x) rfl (by omega)
  refine ⟨t, hexec, hframe, hpc, fun k hk => ?_, fun a ha => ?_⟩
  · have hkx : k.val ≤ x.val := hk
    rw [hmem, if_pos ⟨by omega, by omega⟩, Nat.add_sub_cancel_left, State.regsUpTo_getD s x k hk]
  · rw [hmem, if_neg (by omega)]

/-- Settles O10: the first two bytes of the stored block are those the fetch at I reads. -/
theorem aStoredWordIsTheWordFetchedNext : Obligations.AStoredWordIsTheWordFetchedNext := by
  intro x s hx hinside
  obtain ⟨t, hexec, -, -, hstored, -⟩ := blockStoreWritesTheRegisters x s hinside
  have h0 : t.mem.byteAt s.i.toNat = s.reg 0 := hstored 0 (Fin.zero_le x)
  have h1 : t.mem.byteAt (s.i.toNat + 1) = s.reg 1 := hstored 1 hx
  refine ⟨t, hexec, ?_⟩
  rw [Memory.fetch_ok (by omega), h0, h1]

/-- FX65 with its block in memory. -/
theorem exec_loadRegs_ok {x : Reg} {s : State} (hinside : s.i.toNat + x.val ≤ 4095) :
    exec (.loadRegs x) s = .next { s with
      v := setRegsFrom s.v 0 (s.mem.bytesAt s.i.toNat (x.val + 1)), pc := s.pc + 2, outcome := .ok, redraw := false } := by
  show execLoadRegs x s = _
  rw [execLoadRegs, State.indexAddr, Memory.readBlock_ok (.inr (by omega))]
  rfl

/-- Settles O45: each register up to V[X] takes its byte of the block. -/
theorem blockLoadReadsTheRegisters : Obligations.BlockLoadReadsTheRegisters := by
  intro x s hinside
  refine ⟨_, exec_loadRegs_ok hinside, rfl, pcAdvancedBy_of_add (w := 2) rfl rfl, fun r => ?_⟩
  have hlength := Memory.bytesAt_length s.mem s.i.toNat (x.val + 1)
  have hx := x.isLt
  rw [State.reg, setRegsFrom_get _ _ _ _ (by omega), hlength]
  by_cases hr : r ≤ x
  · have hrx : r.val < x.val + 1 := Nat.lt_succ_of_le hr
    rw [if_pos hr, if_pos ⟨Nat.zero_le _, by omega⟩, Nat.sub_zero, Memory.bytesAt_getD _ _ _ _ hrx]
  · have hrx : ¬r.val ≤ x.val := hr
    rw [if_neg hr, if_neg (by omega)]
    rfl

/-! ### Blocks beyond memory (R206, D10) -/

/-- An instruction that reads a block beyond memory. -/
theorem orOutOfBounds_readBlock_error {s : State} {n : Nat} {k : List Byte → Result} (hpos : 0 < n)
    (hbeyond : 4096 < s.i.toNat + n) :
    orOutOfBounds (s.mem.readBlock s.indexAddr n) s k =
      .next { s with outcome := .outOfBounds .memory (max s.i.toNat 4096), redraw := false } := by
  rw [State.indexAddr, Memory.readBlock_error hpos hbeyond, orOutOfBounds_error]

/-- Settles O46: two stores and two reads of a block, each of the length its rule names. -/
theorem blocksBeyondMemoryAreReported : Obligations.BlocksBeyondMemoryAreReported := by
  intro x y n s u hu
  subst hu
  refine ⟨fun h => ?_, fun h => ⟨?_, ?_⟩, fun hpos h => ?_⟩
  · exact storeBlock_error (bs := bcdDigits (s.reg x)) (by simp [bcdDigits]) (show 4096 < s.i.toNat + 3 by omega)
  · have hlength := State.regsUpTo_length s x
    exact storeBlock_error (bs := s.regsUpTo x) (by omega) (by omega)
  · exact orOutOfBounds_readBlock_error (Nat.succ_pos _) (by omega)
  · exact orOutOfBounds_readBlock_error hpos (by omega)

/-! ### FX1E (R201) -/

/-- Settles O42: VF takes the carry, and I then grows by V[X] as that write left it. -/
theorem indexAddSetsTheWideCarry : Obligations.IndexAddSetsTheWideCarry := by
  intro x s c hc
  have hcarry : indexCarryFlag s.i (s.reg x) = BitVec.ofNat 8 c := by
    rw [indexCarryFlag, flagOf_eq, hc]
    simp only [decide_eq_true_eq]
  have hcsmall : (BitVec.ofNat 8 c).toNat = c := toNat_ofNat_byte (by rw [hc]; split <;> decide)
  refine ⟨_, rfl, ?_, ?_, pcAdvancedBy_of_add (w := 2) rfl rfl, rfl⟩
  · rw [← hcarry]
    exact onlyRegisterIs_of_setReg rfl
  · show (s.i + zext8 ((s.setReg VF (indexCarryFlag s.i (s.reg x))).reg x)).toNat = _
    rw [BitVec.toNat_add, zext8_toNat, State.reg_setReg, hcarry, apply_ite BitVec.toNat, hcsmall]

end Sys2Proof.Machine
end

section
/-! PROOFS. The display (44_display.md): the compositor's loop row by row, in closed form, and from that the drawing instructions. -/

namespace Sys2Proof.Machine

/-! ### One row of a sprite (R222) -/

/-- The row of a sprite at (x, y) has a 1 bit on the pixel (px, py), bit 7 leftmost. -/
def rowBit (x y : Nat) (row : Byte) (px py : Nat) : Bool :=
  decide (py = y ∧ x ≤ px ∧ px < x + 8) && row.getLsbD (7 - (px - x))

theorem rowBit_column {x y e : Nat} {row : Byte} (he : e < 8) : rowBit x y row (x + e) y = row.getLsbD (7 - e) := by
  rw [rowBit, decide_eq_true ⟨rfl, by omega, by omega⟩, Bool.true_and, Nat.add_sub_cancel_left]

/-- Bits at different columns do not meet: each collides where its pixel was lit before the first of them. -/
theorem collision_foldl_plotBit (x y : Nat) (row : Byte) (columns : List Nat) (hnodup : columns.Nodup)
    (acc : Framebuffer × Bool) :
    (columns.foldl (fun acc e => plotBit (x + e) y (row.getLsbD (7 - e)) acc) acc).2 = true ↔
      acc.2 = true ∨ ∃ e ∈ columns, y < 32 ∧ x + e < 64 ∧ row.getLsbD (7 - e) = true ∧ pixel acc.1 (x + e) y = true := by
  induction columns generalizing acc with
  | nil => simp
  | cons e columns ih =>
    obtain ⟨hnotmem, hnodup⟩ := List.nodup_cons.mp hnodup
    have hpixel : ∀ e' ∈ columns,
        pixel (plotBit (x + e) y (row.getLsbD (7 - e)) acc).1 (x + e') y = pixel acc.1 (x + e') y := by
      intro e' he'
      have hne : x + e' ≠ x + e := fun h => hnotmem (Nat.add_left_cancel h ▸ he')
      rw [pixel_plotBit, decide_eq_false fun h => hne h.1, Bool.xor_false]
    rw [List.foldl_cons, ih hnodup, collision_plotBit, List.exists_mem_cons_iff]
    simp only [Bool.or_eq_true, Bool.and_eq_true, decide_eq_true_eq, or_assoc, and_assoc]
    refine or_congr_right (or_congr_right (exists_congr fun e' => and_congr_right fun he' => ?_))
    rw [hpixel e' he']

/-- One row of a sprite collides exactly where one of its 1 bits is on a lit pixel of the grid. -/
theorem collision_plotRow (x y : Nat) (row : Byte) (acc : Framebuffer × Bool) :
    (plotRow x y row acc).2 = true ↔
      acc.2 = true ∨ ∃ px, px < 64 ∧ y < 32 ∧ rowBit x y row px y = true ∧ pixel acc.1 px y = true := by
  rw [plotRow, collision_foldl_plotBit x y row _ (by decide)]
  refine or_congr_right ⟨?_, ?_⟩
  · rintro ⟨e, he, hy, hx, hbit, hlit⟩
    have he8 : e < 8 := List.mem_range.mp he
    exact ⟨x + e, hx, hy, (rowBit_column he8).trans hbit, hlit⟩
  · rintro ⟨px, hx, hy, hbit, hlit⟩
    have hcolumn : x ≤ px ∧ px < x + 8 := by
      simp only [rowBit, Bool.and_eq_true, decide_eq_true_eq] at hbit
      exact hbit.1.2
    obtain ⟨e, rfl⟩ := Nat.exists_eq_add_of_le hcolumn.1
    have he8 : e < 8 := by omega
    exact ⟨e, List.mem_range.mpr he8, hy, hx, (rowBit_column he8).symm.trans hbit, hlit⟩

/-! ### The sprite's bits by rows -/

theorem spriteBit_cons (x y : Nat) (row : Byte) (rows : List Byte) (px py : Nat) :
    spriteBit x y (row :: rows) px py = if py = y then rowBit x y row px py else spriteBit x (y + 1) rows px py := by
  by_cases hy : py = y
  · subst hy
    rw [if_pos rfl, spriteBit, rowBit, Nat.sub_self, List.getD_cons_zero, List.length_cons]
    congr 1
    exact decide_eq_decide.mpr (by omega)
  · rw [if_neg hy, spriteBit, spriteBit]
    by_cases hbelow : y + 1 ≤ py
    · obtain ⟨d, rfl⟩ := Nat.exists_eq_add_of_le hbelow
      rw [show y + 1 + d - y = d + 1 by omega, Nat.add_sub_cancel_left, List.getD_cons_succ]
      rw [List.length_cons]
      congr 1
      exact decide_eq_decide.mpr (by omega)
    · rw [decide_eq_false (by omega), decide_eq_false (by omega), Bool.false_and, Bool.false_and]

/-- A sprite has no bit above its first row. -/
theorem spriteBit_above {x y : Nat} {rows : List Byte} {px py : Nat} (h : py < y) : spriteBit x y rows px py = false := by
  rw [spriteBit, decide_eq_false (by omega), Bool.false_and]

theorem spriteBit_nil (x y px py : Nat) : spriteBit x y [] px py = false := by
  rw [spriteBit, List.getD_nil, decide_eq_false (by simp), Bool.false_and]

/-! ### The whole sprite -/

theorem pixel_plotRows (x y : Nat) (rows : List Byte) (acc : Framebuffer × Bool) {px py : Nat} (hx : px < 64) (hy : py < 32) :
    pixel (plotRows x y rows acc).1 px py = (pixel acc.1 px py ^^ spriteBit x y rows px py) := by
  induction rows generalizing y acc with
  | nil => rw [plotRows, spriteBit_nil, Bool.xor_false]
  | cons row rows ih =>
    have hrow : pixel (plotRow x y row acc).1 px py = (pixel acc.1 px py ^^ rowBit x y row px py) :=
      pixel_plotRow x y row acc px py hx hy
    rw [plotRows, ih, hrow, spriteBit_cons, Bool.xor_assoc]
    congr 1
    split
    next heq => rw [spriteBit_above (heq ▸ Nat.lt_succ_self y), Bool.xor_false]
    next hne => rw [rowBit, decide_eq_false fun h => hne h.1, Bool.false_and, Bool.false_xor]

theorem collision_plotRows (x y : Nat) (rows : List Byte) (acc : Framebuffer × Bool) :
    (plotRows x y rows acc).2 = true ↔
      acc.2 = true ∨ ∃ px py, px < 64 ∧ py < 32 ∧ spriteBit x y rows px py = true ∧ pixel acc.1 px py = true := by
  induction rows generalizing y acc with
  | nil => simp [plotRows, spriteBit_nil]
  | cons row rows ih =>
    have hlater {px py : Nat} (hx : px < 64) (hy : py < 32) (hne : py ≠ y) :
        pixel (plotRow x y row acc).1 px py = pixel acc.1 px py := by
      rw [pixel_plotRow x y row acc px py hx hy, decide_eq_false fun h => hne h.1, Bool.false_and, Bool.xor_false]
    rw [plotRows, ih, collision_plotRow, or_assoc]
    refine or_congr_right ⟨?_, ?_⟩
    · rintro (⟨px, hx, hy, hbit, hlit⟩ | ⟨px, py, hx, hy, hbit, hlit⟩)
      · exact ⟨px, y, hx, hy, by rwa [spriteBit_cons, if_pos rfl], hlit⟩
      · have hne : py ≠ y := by
          rintro rfl
          rw [spriteBit_above (Nat.lt_succ_self py)] at hbit
          cases hbit
        exact ⟨px, py, hx, hy, by rwa [spriteBit_cons, if_neg hne], (hlater hx hy hne).symm.trans hlit⟩
    · rintro ⟨px, py, hx, hy, hbit, hlit⟩
      rw [spriteBit_cons] at hbit
      split at hbit
      next heq =>
        subst heq
        exact .inl ⟨px, hx, hy, hbit, hlit⟩
      next hne => exact .inr ⟨px, py, hx, hy, hbit, (hlater hx hy hne).trans hlit⟩

/-- Settles O48: the rows, from the given framebuffer and no collision. -/
theorem compositeFlipsTheSpriteAndReportsCollisions : Obligations.CompositeFlipsTheSpriteAndReportsCollisions := by
  intro x y rows fb
  refine ⟨fun px py hx hy => pixel_plotRows x y rows (fb, false) hx hy, ?_⟩
  rw [composite, collision_plotRows]
  simp only [Bool.false_eq_true, false_or]

/-- Settles O50: flipping twice is no flip; where the sprite has a bit, the first draw lit exactly the pixels that were off. -/
theorem drawingTwiceRestoresTheFramebuffer : Obligations.DrawingTwiceRestoresTheFramebuffer := by
  intro x y rows fb
  obtain ⟨hfirst, -⟩ := compositeFlipsTheSpriteAndReportsCollisions x y rows fb
  obtain ⟨hsecond, hcollides⟩ := compositeFlipsTheSpriteAndReportsCollisions x y rows (composite x y rows fb).1
  constructor
  · refine framebuffer_ext fun px py hx hy => ?_
    rw [hsecond px py hx hy, hfirst px py hx hy, Bool.xor_assoc, Bool.xor_self, Bool.xor_false]
  · rw [hcollides]
    refine exists_congr fun px => exists_congr fun py => and_congr_right fun hx => and_congr_right fun hy =>
      and_congr_right fun hbit => ?_
    rw [hfirst px py hx hy, hbit, Bool.xor_true, Bool.not_eq_true']

/-! ### The drawing instructions (R223, R224) -/

/-- Settles O47: every pixel of the cleared framebuffer is off. -/
theorem clearTurnsEveryPixelOff : Obligations.ClearTurnsEveryPixelOff := fun _ =>
  ⟨_, rfl, pixel_cleared, pcAdvancedBy_of_add (w := 2) rfl rfl, rfl⟩

theorem Memory.bytesAt_eq_map (m : Memory) (a n : Nat) : m.bytesAt a n = (List.range n).map fun k => m.byteAt (a + k) := by
  refine List.ext_getElem (by rw [Memory.bytesAt_length, List.length_map, List.length_range]) fun k hk _ => ?_
  have hkn : k < n := by rwa [Memory.bytesAt_length] at hk
  rw [List.getElem_map, List.getElem_range, ← Memory.bytesAt_getD m a n k hkn, List.getD_eq_getElem _ _ hk]

/-- Settles O49: with the N bytes at I in memory, or none, the block read gives them. -/
theorem drawComposesTheSpriteAtI : Obligations.DrawComposesTheSpriteAtI := by
  intro x y n s rows hinside hrows
  have hread : s.mem.readBlock s.indexAddr n.toNat = .ok rows := by
    rw [hrows, ← Memory.bytesAt_eq_map]
    exact Memory.readBlock_ok (by rw [State.indexAddr]; omega)
  have hexec : exec (.drw x y n) s =
      let r := composite (s.reg x).toNat (s.reg y).toNat rows s.fb
      doneRedraw (({ s with fb := r.1 }.setReg VF (flagOf r.2)).advance 2) := by
    show execDrw x y n s = _
    rw [execDrw, hread]
    rfl
  refine ⟨_, hexec, rfl, ?_, pcAdvancedBy_of_add (w := 2) rfl rfl, rfl⟩
  exact onlyRegisterIs_of_setReg (b := flagOf _) rfl

end Sys2Proof.Machine
end

section
/-! PROOFS. Keys and timers (45_input_timers.md): the key skips on either side of code 15, the timer instructions alone and over their
whole step, and the key wait from its entry to its completion. -/

namespace Sys2Proof.Machine

/-! ### Key skips (R240, R241) -/

/-- Settles O51: with a key code the two skip on the key and on its negation. -/
theorem keySkipsReadTheKey : Obligations.KeySkipsReadTheKey := by
  intro x k s hcode
  have hlt : (s.reg x).toNat < 16 := hcode ▸ k.isLt
  have hkey : (⟨(s.reg x).toNat, hlt⟩ : Key) = k := Fin.ext hcode
  constructor
  · refine skipsWhen_of_skipIf (b := s.key k) ?_ Iff.rfl
    rw [exec_skp, withKey_of_lt hlt, hkey]
  · refine skipsWhen_of_skipIf (b := !s.key k) ?_ (Bool.not_eq_true' _).to_iff
    rw [exec_sknp, withKey_of_lt hlt, hkey]

/-- Settles O52: the key check of both reports the code. -/
theorem aKeyCodeAboveFifteenIsReported : Obligations.AKeyCodeAboveFifteenIsReported := by
  intro x s u hcode hu
  rw [hu, exec_skp, exec_sknp]
  exact ⟨withKey_of_ge hcode, withKey_of_ge hcode⟩

/-! ### Timers (R242, R249, R250) -/

theorem setsRegister_ldVDt (x : Reg) (s : State) : SetsRegister (.ldVDt x) x s.dt.toNat s :=
  setsRegister_of_loadReg rfl (by simp)

theorem exec_ldDtV (x : Reg) (s : State) :
    exec (.ldDtV x) s = .next { s with dt := s.reg x, pc := s.pc + 2, outcome := .ok, redraw := false } := rfl

theorem exec_ldStV (x : Reg) (s : State) :
    exec (.ldStV x) s = .next { s with st := s.reg x, pc := s.pc + 2, outcome := .ok, redraw := false } := rfl

/-- Settles O53: FX07 is a register load; the other two write one timer. -/
theorem timerInstructionsMoveTheTimers : Obligations.TimerInstructionsMoveTheTimers := fun x s =>
  ⟨setsRegister_ldVDt x s, ⟨_, exec_ldDtV x s, rfl, pcAdvancedBy_of_add (w := 2) rfl rfl, rfl⟩,
    ⟨_, exec_ldStV x s, rfl, pcAdvancedBy_of_add (w := 2) rfl rfl, rfl⟩⟩

/-- A step whose instruction answers `t` without suspending: the V registers of `t`, its timers ticked, and the beep of its ST. -/
theorem step_of_completed {i : Instr} {s t : State} (hnext : RunsNext i s) (hexec : exec i s = .next t)
    (hok : t.outcome = .ok) :
    ∃ u, step s = .next u ∧ u.v = t.v ∧ u.dt = ticked t.dt ∧ u.st = ticked t.st ∧ (u.beep = true ↔ t.st.toNat = 1) := by
  refine ⟨t.endStep, ?_, State.endStep_v t, endStep_timers (by simp [hok])⟩
  rw [step_of_runsNext hnext, hexec, mapNext_next]

/-- Settles O54: the tick comes after the instruction, so it takes DT after FX07 has read it, and the timer just written. -/
theorem aTimerWriteIsTickedInItsOwnStep : Obligations.ATimerWriteIsTickedInItsOwnStep := by
  intro x s
  refine ⟨fun hnext => ?_, fun hnext => ?_, fun hnext => ?_⟩
  · obtain ⟨u, hstep, hv, hdt, -⟩ := step_of_completed hnext (t := { s.setReg x s.dt with
      pc := s.pc + 2, outcome := .ok, redraw := false }) rfl rfl
    refine ⟨u, hstep, ?_, hdt⟩
    rw [State.reg_congr (s := s.setReg x s.dt) hv, State.reg_setReg, if_pos rfl]
  · obtain ⟨u, hstep, -, hdt, -⟩ := step_of_completed hnext (exec_ldDtV x s) rfl
    exact ⟨u, hstep, (congrArg BitVec.toNat hdt).trans (ticked_toNat _)⟩
  · obtain ⟨u, hstep, -, -, hst, hbeep⟩ := step_of_completed hnext (exec_ldStV x s) rfl
    exact ⟨u, hstep, (congrArg BitVec.toNat hst).trans (ticked_toNat _), hbeep⟩

/-! ### The key wait (R243 to R248) -/

theorem exec_ldVK (x : Reg) (s : State) :
    exec (.ldVK x) s = .next { s with waiting := some x, edge := none, outcome := .suspended, redraw := false } := rfl

/-- The step of an FX0A entry: it suspends, so there is no tick. -/
theorem step_of_keyWaitEntry {x : Reg} {s : State} (hnext : RunsNext (.ldVK x) s) :
    step s = .next { s with
      waiting := some x, edge := none, outcome := .suspended, redraw := false, beep := false, rndIn := none,
      rndCount := s.rndCount + 1 } := by
  rw [step_of_runsNext hnext, exec_ldVK, mapNext_next, endStep_suspended rfl]

/-- Settles O55: the entry, and the end of its suspended transition. -/
theorem keyWaitEntrySuspendsWithoutATick : Obligations.KeyWaitEntrySuspendsWithoutATick := fun x s =>
  ⟨exec_ldVK x s, step_of_keyWaitEntry⟩

/-! ### The host's setKey (R245) -/

theorem key_setKey (s : State) (k j : Key) (p : Bool) : (s.setKey k p).key j = if j = k then p else s.key j :=
  vector_get_set s.keys j k p

theorem edge_setKey_first {s : State} {x : Reg} (k : Key) (hw : s.waiting = some x) (he : s.edge = none) :
    (s.setKey k true).edge = some k :=
  if_pos ⟨rfl, by simp [hw], he⟩

/-- Settles O57: the key written, and the condition under which the press is latched. -/
theorem setKeyLatchesTheFirstPress : Obligations.SetKeyLatchesTheFirstPress := by
  intro k p s t ht
  subst ht
  have hwaits : (p = true ∧ s.waiting.isSome = true ∧ s.edge = none) ↔ (p ∧ s.waiting ≠ none ∧ s.edge = none) := by
    rw [Option.isSome_iff_ne_none]
  exact ⟨fun j => key_setKey s k j p, fun h => if_pos (hwaits.mp h), fun h => if_neg fun h' => h (hwaits.mpr h'), rfl⟩

/-- Settles O56: the entry leaves WAIT at X with no edge, the press is latched as its edge, and the completion then ends with the
one tick; the entry and the press move neither PC nor the timers. -/
theorem aKeyWaitEndsWithTheKeyReported : Obligations.AKeyWaitEndsWithTheKeyReported := by
  intro x k s t hnext hstep
  have hq : s.quit = false := hnext.1
  rw [step_of_keyWaitEntry hnext] at hstep
  cases hstep
  refine ⟨_, step_of_edge hq rfl (edge_setKey_first k rfl rfl), ?_⟩
  obtain ⟨hdt, hst, hbeep⟩ := endStep_timers (s := State.completeKeyWait (State.setKey { s with
    waiting := some x, edge := none, outcome := .suspended, redraw := false, beep := false, rndIn := none,
    rndCount := s.rndCount + 1 } k true) x k) (by simp)
  refine ⟨onlyRegisterIs_completeKeyWait _ x k, ?_, hdt, hst, hbeep, State.endStep_waiting _, State.endStep_edge _,
    State.endStep_outcome _, ?_⟩
  · exact pcAdvancedBy_of_add (w := 2) (State.endStep_pc _) rfl
  · rw [State.key, State.endStep_keys]
    exact (key_setKey _ k k true).trans (if_pos rfl)

end Sys2Proof.Machine
end

section
/-! PROOFS. The host (10_state.md section 6, 70_reset_and_hazards.md): what each of its actions answers and leaves. -/

namespace Sys2Proof.Machine

/-! ### One action -/

/-- Settles O58: the two conditionals on WAIT decide EDGE, and QUIT halts the cycle. -/
theorem requestQuitAbandonsTheWaitAndHalts : Obligations.RequestQuitAbandonsTheWaitAndHalts := by
  intro s t ht
  subst ht
  refine ⟨rfl, rfl, fun hw => if_pos (Option.isSome_iff_ne_none.mp hw), fun hw => if_neg fun h => h hw, rfl, cycle_quit rfl⟩

theorem loadProgram_of_fits {s : State} {bs : List Byte} (h : bs.length ≤ 3584) :
    s.loadProgram bs = (.ok, { s with mem := s.mem.putBytes 0x200 bs }) :=
  if_neg (show ¬4096 < 0x200 + bs.length by omega)

theorem loadProgram_of_tooLarge {s : State} {bs : List Byte} (h : 3584 < bs.length) :
    s.loadProgram bs = (.programTooLarge bs.length, s) :=
  if_pos (show 4096 < 0x200 + bs.length by omega)

/-- Settles O59: the size decides, and the bytes placed are those of a block write. -/
theorem loadProgramPlacesTheBytesOrRefuses : Obligations.LoadProgramPlacesTheBytesOrRefuses := by
  intro s t bs r hload
  constructor
  · intro hlarge
    rw [loadProgram_of_tooLarge hlarge] at hload
    cases hload
    exact ⟨rfl, rfl⟩
  · intro hfits
    rw [loadProgram_of_fits hfits] at hload
    cases hload
    refine ⟨rfl, rfl, fun k hk => ?_, fun a ha => ?_⟩
    · rw [Memory.byteAt_putBytes, if_pos (by omega), Nat.add_sub_cancel_left]
    · rw [Memory.byteAt_putBytes, if_neg (by omega)]

/-! ### All six actions -/

theorem hostAct_none {a : HostAction} (h : a ≠ .reinit) : hostAct a none = .refused .notInitialised := by
  cases a with
  | reinit => exact absurd rfl h
  | _ => rfl

theorem hostAct_step (s : State) (b : Byte) : hostAct (.step b) (some s) = steppedReply (coreStep b s) := rfl

/-- Settles O60: each action by its own line of the definition. -/
theorem hostActionsAnswerAsTheirRulesSay : Obligations.HostActionsAnswerAsTheirRulesSay := by
  refine ⟨fun a => hostAct_none, rfl, fun _ => rfl, ?loaded, ?stepped, ?halted, ?held, ?key, ?notAKey, fun _ => rfl,
    fun _ => rfl⟩
  case loaded =>
    intro s t bs r hload
    show Host.Outcome.next ((s.loadProgram bs).2, HostReply.loaded (s.loadProgram bs).1) = _
    rw [hload]
  case stepped =>
    intro s t b hstep
    rw [hostAct_step, hstep]
    rfl
  case halted =>
    intro s b hq
    rw [hostAct_step, (aQuitCoreHasNoTransition s b hq).2]
    rfl
  case held =>
    intro s b x hq hw he
    have hheld : coreStep b s = .fault .keyWaitHold := step_of_noEdge (s := { s with rndIn := some b }) hq hw he
    rw [hostAct_step, hheld]
    rfl
  case key => exact fun s p k => dif_pos k.isLt
  case notAKey => exact fun s k p hk => dif_neg (Nat.not_lt.mpr hk)

/-! ### Legal states -/

theorem legal_loadProgram {s : State} (h : s.legal) (bs : List Byte) : (s.loadProgram bs).2.legal := by
  by_cases hfits : bs.length ≤ 3584
  · rw [loadProgram_of_fits hfits]
    exact ⟨Memory.wf_putBytes h.1 0x200 bs (show 0x200 + bs.length ≤ 4096 by omega), h.2⟩
  · rw [loadProgram_of_tooLarge (Nat.lt_of_not_le hfits)]
    exact h

/-- An edge is latched only while the core waits. -/
theorem legal_setKey {s : State} (h : s.legal) (k : Key) (p : Bool) : (s.setKey k p).legal := by
  refine ⟨h.1, fun (hw : s.waiting = none) => ?_⟩
  show (if p ∧ s.waiting ≠ none ∧ s.edge = none then some k else s.edge) = none
  rw [if_neg fun hlatched => hlatched.2.1 hw]
  exact h.2 hw

/-- An abandoned wait takes its edge with it; without one there was no edge. -/
theorem legal_requestQuit {s : State} (h : s.legal) : s.requestQuit.legal := by
  refine ⟨h.1, fun _ => ?_⟩
  show (if s.waiting ≠ none then none else s.edge) = none
  split
  next => rfl
  next hw => exact h.2 (not_not.mp hw)

theorem eq_of_steppedReply {r : Result} {t : State} {reply : HostReply} (h : steppedReply r = .next (t, reply)) :
    r = .next t := by
  cases r with
  | next u => cases h; rfl
  | fault => cases h
  | refused => cases h

theorem legal_actOn {s t : State} {a : HostAction} {reply : HostReply} (hs : s.legal) (h : actOn s a = .next (t, reply)) :
    t.legal := by
  cases a with
  | reinit =>
    cases h
    exact ⟨Memory.wf_nil, fun _ => rfl⟩
  | loadProgram bs =>
    cases h
    exact legal_loadProgram hs bs
  | step b => exact everyStepKeepsAStateLegal { s with rndIn := some b } t hs (eq_of_steppedReply h)
  | setKey code p =>
    simp only [actOn] at h
    split at h
    next hcode =>
      cases h
      exact legal_setKey hs ⟨code, hcode⟩ p
    next => cases h
  | requestQuit =>
    cases h
    exact legal_requestQuit hs
  | getFramebuffer =>
    cases h
    exact hs

/-- Settles O23: from no state the only action is the one that gives the reset state; from a legal one, each action in turn. -/
theorem everyHostActionKeepsAStateLegal : Obligations.EveryHostActionKeepsAStateLegal := by
  intro a session t reply hsession hact
  cases session with
  | some s => exact legal_actOn (hsession s rfl) hact
  | none =>
    by_cases ha : a = .reinit
    · subst ha
      cases hact
      exact resetHoldsTheTableValues.1
    · rw [hostAct_none ha] at hact
      cases hact

end Sys2Proof.Machine
end
